-- ==== Sys2Proof/Word.lean ====
section
/-! DEFINITION. The widths of the hardware (rule R5) as types, and the register names of rule R20. -/

namespace Sys2Proof

/-- An 8-bit value: a memory byte or the contents of a general register (R5 `REG_W`, R20, R50). -/
abbrev Byte := BitVec 8

/-- A 16-bit value: pc, I, a stack entry, INFO (R5 `PC_W`, `I_W`, `STACK_ENTRY_W`; R29). -/
abbrev Addr := BitVec 16

/-- A 16-bit instruction word, bit 15 the most significant (R6, R70). -/
abbrev Insn := BitVec 16

/-- One 4-bit field of an instruction word (R71). -/
abbrev Nibble := BitVec 4

/-- The 12-bit operand `nnn` (R73). -/
abbrev Operand := BitVec 12

/-- A general register number, V0..VF as 0..15; no register number is illegal (R20). -/
abbrev Reg := Fin 16

/-- The sprite height `n`, 0..15 rows (R5 `SPRITE_H`). -/
abbrev Height := Fin 16

/-- V0, the base register of the jump with offset (R150). -/
abbrev V0 : Reg := 0

/-- VF, register 15: an ordinary register that doubles as the flag register (R8, R21). -/
abbrev VF : Reg := 15

end Sys2Proof
end

