-- ==== Sys2Proof/Syntax.lean ====
section
/-! DEFINITION. The instruction set: the 17 rows of rule R75, one constructor each. -/

namespace Sys2Proof

/-- One instruction of the 17-instruction subset (R1, R75). The operand types are exactly the ranges of R73. -/
inductive Instr where
  /-- `00E0 CLS`: clear the display (R100). -/
  | cls
  /-- `00EE RET`: return from subroutine (R101). -/
  | ret
  /-- `1nnn JP nnn`: jump (R110). -/
  | jp (nnn : Operand)
  /-- `2nnn CALL nnn`: call subroutine (R111). -/
  | call (nnn : Operand)
  /-- `6xkk LD Vx, kk`: load immediate (R120). -/
  | ldImm (x : Reg) (kk : Byte)
  /-- `7xkk ADD Vx, kk`: add immediate, saturating (R121). -/
  | addImm (x : Reg) (kk : Byte)
  /-- `8xy0 LD Vx, Vy`: copy (R131). -/
  | ldReg (x y : Reg)
  /-- `8xy1 OR Vx, Vy`: bitwise OR (R132). -/
  | orReg (x y : Reg)
  /-- `8xy2 AND Vx, Vy`: bitwise AND (R133). -/
  | andReg (x y : Reg)
  /-- `8xy3 XOR Vx, Vy`: bitwise exclusive OR (R134). -/
  | xorReg (x y : Reg)
  /-- `8xy4 ADD Vx, Vy`: add, wrapping, with carry flag (R135). -/
  | addReg (x y : Reg)
  /-- `8xy5 SUB Vx, Vy`: subtract, wrapping, with borrow flag (R136). -/
  | subReg (x y : Reg)
  /-- `8xy6 SHR Vx, Vy`: shift right (R137). -/
  | shrReg (x y : Reg)
  /-- `8xy7 SUBN Vx, Vy`: subtract reversed, wrapping, with borrow flag (R138). -/
  | subnReg (x y : Reg)
  /-- `8xyE SHL Vx, Vy`: shift left (R139). -/
  | shlReg (x y : Reg)
  /-- `Bnnn JP V0, nnn`: jump to V0 plus operand (R150). -/
  | jpV0 (nnn : Operand)
  /-- `Dxyn DRW Vx, Vy, n`: draw sprite (R155). -/
  | drw (x y : Reg) (n : Height)
  deriving DecidableEq, Repr

end Sys2Proof
end

