-- ==== Sys2Proof/WellFormed.lean ====
section
/-! DEFINITION. The checks on what comes from outside: which 16-bit words are instructions (the opcode map of rule
R75) and which program images fit (rule R61). An `Instr` needs no check of its own: its operand types hold exactly the
values of rule R73, and rule R20 says that no register number is illegal. -/

namespace Sys2Proof

/-- One row of the opcode map: a word `w` is this instruction exactly when `(w & mask) == pattern` (R75). -/
structure OpcodeRow where
  mnemonic : String
  pattern : Insn
  mask : Insn
  deriving DecidableEq, Repr

/-- The opcode map of R75, row by row; the mnemonics are those of spec/opcode_table.json. -/
def opcodeTable : List OpcodeRow :=
  [ ⟨"CLS", 0x00E0, 0xFFFF⟩,
    ⟨"RET", 0x00EE, 0xFFFF⟩,
    ⟨"JP_nnn", 0x1000, 0xF000⟩,
    ⟨"CALL_nnn", 0x2000, 0xF000⟩,
    ⟨"LD_Vx__kk", 0x6000, 0xF000⟩,
    ⟨"ADD_Vx__kk", 0x7000, 0xF000⟩,
    ⟨"LD_Vx__Vy", 0x8000, 0xF00F⟩,
    ⟨"OR_Vx__Vy", 0x8001, 0xF00F⟩,
    ⟨"AND_Vx__Vy", 0x8002, 0xF00F⟩,
    ⟨"XOR_Vx__Vy", 0x8003, 0xF00F⟩,
    ⟨"ADD_Vx__Vy", 0x8004, 0xF00F⟩,
    ⟨"SUB_Vx__Vy", 0x8005, 0xF00F⟩,
    ⟨"SHR_Vx__Vy", 0x8006, 0xF00F⟩,
    ⟨"SUBN_Vx__Vy", 0x8007, 0xF00F⟩,
    ⟨"SHL_Vx__Vy", 0x800E, 0xF00F⟩,
    ⟨"JP_V0__nnn", 0xB000, 0xF000⟩,
    ⟨"DRW_Vx__Vy__n", 0xD000, 0xF000⟩ ]

/-- `(w & mask) == match` (R75). -/
def OpcodeRow.covers (row : OpcodeRow) (w : Insn) : Bool := w &&& row.mask == row.pattern

/-- The word is one of the 17 instructions (R75); every other word is illegal (R76). -/
def Insn.legal (w : Insn) : Bool := opcodeTable.any (fun row => row.covers w)

/-- The table's row for an instruction, by its place in R75. -/
def Instr.rowNumber : Instr → Nat
  | .cls => 0
  | .ret => 1
  | .jp _ => 2
  | .call _ => 3
  | .ldImm _ _ => 4
  | .addImm _ _ => 5
  | .ldReg _ _ => 6
  | .orReg _ _ => 7
  | .andReg _ _ => 8
  | .xorReg _ _ => 9
  | .addReg _ _ => 10
  | .subReg _ _ => 11
  | .shrReg _ _ => 12
  | .subnReg _ _ => 13
  | .shlReg _ _ => 14
  | .jpV0 _ => 15
  | .drw _ _ _ => 16

/-- "`len(bytes)` must be at most 3584 so that the last byte lands at 0xFFF" (R61, R5 `IMG_MAX`, D23). -/
def imageFits (image : List Byte) : Bool := image.length ≤ 3584

end Sys2Proof
end

