-- ==== Sys2Proof/Decode.lean ====
section
/-! DEFINITION. The decoder of rule R74, total on all 65536 words and on any bytes, and the encoder of rules R71, R75 and
R80. The decoder is written from the decision tree of R74; the table of R75 stands apart in WellFormed.lean, so that the
two can be held against each other. -/

namespace Sys2Proof

/-! ## The fields of the word (rules R10, R71, R73) -/

/-- The register a 4-bit field names (R20). -/
def regOfNibble (b : Nibble) : Reg := b.toFin

/-- `op = w[15:12]`. -/
def opField (w : Insn) : Nibble := w.extractLsb' 12 4

/-- `x = w[11:8]`, a register number. -/
def xField (w : Insn) : Reg := regOfNibble (w.extractLsb' 8 4)

/-- `y = w[7:4]`, a register number. -/
def yField (w : Insn) : Reg := regOfNibble (w.extractLsb' 4 4)

/-- `n = w[3:0]`, as the sub-opcode of family 0x8. -/
def nField (w : Insn) : Nibble := w.extractLsb' 0 4

/-- `n = w[3:0]`, as the sprite height of family 0xD. -/
def heightField (w : Insn) : Height := (nField w).toFin

/-- `nnn = w[11:0]`, the operand. -/
def nnnField (w : Insn) : Operand := w.extractLsb' 0 12

/-- `kk = w[7:0]`, the immediate. -/
def kkField (w : Insn) : Byte := w.extractLsb' 0 8

/-! ## Decoding (rule R74) -/

/-- Why bytes are no instruction. -/
inductive Reject where
  /-- The word is none of the 17 instructions; it carries the exact 16-bit value (R76, R171). -/
  | unimplementedOpcode (w : Insn)
  /-- Fewer than two bytes: not a word (R70). The core never meets this, since fetch reads two bytes (R91). -/
  | truncated
  deriving DecidableEq, Repr

/-- Family 0x0 matches on the whole word (R74, D9). -/
def decodeMisc (w : Insn) : Except Reject Instr :=
  if w = 0x00E0 then .ok .cls
  else if w = 0x00EE then .ok .ret
  else .error (.unimplementedOpcode w)

/-- Family 0x8 selects by the low nibble (R74, R140). -/
def decodeAlu (w : Insn) : Except Reject Instr :=
  let x := xField w
  let y := yField w
  if nField w = 0x0 then .ok (.ldReg x y)
  else if nField w = 0x1 then .ok (.orReg x y)
  else if nField w = 0x2 then .ok (.andReg x y)
  else if nField w = 0x3 then .ok (.xorReg x y)
  else if nField w = 0x4 then .ok (.addReg x y)
  else if nField w = 0x5 then .ok (.subReg x y)
  else if nField w = 0x6 then .ok (.shrReg x y)
  else if nField w = 0x7 then .ok (.subnReg x y)
  else if nField w = 0xE then .ok (.shlReg x y)
  else .error (.unimplementedOpcode w)

/-- The decoder: it routes on the high nibble, then inside families 0x0 and 0x8 on the rest (R74, R92). -/
def decodeWord (w : Insn) : Except Reject Instr :=
  if opField w = 0x0 then decodeMisc w
  else if opField w = 0x1 then .ok (.jp (nnnField w))
  else if opField w = 0x2 then .ok (.call (nnnField w))
  else if opField w = 0x6 then .ok (.ldImm (xField w) (kkField w))
  else if opField w = 0x7 then .ok (.addImm (xField w) (kkField w))
  else if opField w = 0x8 then decodeAlu w
  else if opField w = 0xB then .ok (.jpV0 (nnnField w))
  else if opField w = 0xD then .ok (.drw (xField w) (yField w) (heightField w))
  else .error (.unimplementedOpcode w)

/-- `w = MemRead(pc,1) * 256 + MemRead(pc+1,1)`: the byte at the lower address is the high byte (R52, R91). -/
def composeWord (hi lo : Byte) : Insn := BitVec.ofNat 16 (hi.toNat * 256 + lo.toNat)

/-- Decode the instruction at the head of any bytes and give the bytes that follow it (R70, R77). -/
def decode : List Byte → Except Reject (Instr × List Byte)
  | hi :: lo :: rest =>
    match decodeWord (composeWord hi lo) with
    | .ok i => .ok (i, rest)
    | .error r => .error r
  | _ => .error .truncated

/-! ## Encoding (rules R71, R72, R75, R80) -/

/-- Format `NNN`: `op * 4096 + nnn` (R71, R72). -/
def wordNNN (op : Nat) (nnn : Operand) : Insn := BitVec.ofNat 16 (op * 4096 + nnn.toNat)

/-- Format `XKK`: `op * 4096 + x * 256 + kk` (R71, R72). -/
def wordXKK (op : Nat) (x : Reg) (kk : Byte) : Insn := BitVec.ofNat 16 (op * 4096 + x.val * 256 + kk.toNat)

/-- Format `XYN`: `op * 4096 + x * 256 + y * 16 + n` (R71, R72). -/
def wordXYN (op : Nat) (x y : Reg) (n : Nat) : Insn := BitVec.ofNat 16 (op * 4096 + x.val * 256 + y.val * 16 + n)

/-- The word of an instruction, from the opcode map of R75. -/
def encodeWord : Instr → Insn
  | .cls => 0x00E0
  | .ret => 0x00EE
  | .jp nnn => wordNNN 0x1 nnn
  | .call nnn => wordNNN 0x2 nnn
  | .ldImm x kk => wordXKK 0x6 x kk
  | .addImm x kk => wordXKK 0x7 x kk
  | .ldReg x y => wordXYN 0x8 x y 0x0
  | .orReg x y => wordXYN 0x8 x y 0x1
  | .andReg x y => wordXYN 0x8 x y 0x2
  | .xorReg x y => wordXYN 0x8 x y 0x3
  | .addReg x y => wordXYN 0x8 x y 0x4
  | .subReg x y => wordXYN 0x8 x y 0x5
  | .shrReg x y => wordXYN 0x8 x y 0x6
  | .subnReg x y => wordXYN 0x8 x y 0x7
  | .shlReg x y => wordXYN 0x8 x y 0xE
  | .jpV0 nnn => wordNNN 0xB nnn
  | .drw x y n => wordXYN 0xD x y n.val

/-- The byte at the lower address, `w[15:8]` (R80). -/
def highByte (w : Insn) : Byte := w.extractLsb' 8 8

/-- The byte at the higher address, `w[7:0]` (R80). -/
def lowByte (w : Insn) : Byte := w.extractLsb' 0 8

/-- "An instruction assembles to two bytes, high byte first" (R80). -/
def wordBytes (w : Insn) : List Byte := [highByte w, lowByte w]

/-- The bytes of an instruction as memory holds them (R80). -/
def encode (i : Instr) : List Byte := wordBytes (encodeWord i)

/-! ## The opcode table's numbering -/

/-- The word of a row's bits: the first `nbits` bits of `w`, the rest zero; every instruction is one 16-bit word. -/
def tableWord (nbits w : Nat) : Insn := BitVec.ofNat 16 (w % 2 ^ nbits)

/-- The instruction the decoder reads from the bytes of a table word, laid out high byte first. -/
def decodeTableWord (nbits w : Nat) : Option Instr :=
  match decode (wordBytes (tableWord nbits w)) with
  | .ok (i, _) => some i
  | .error _ => none

end Sys2Proof
end

