-- ==== Sys2Proof/Config.lean ====
section
/-! DEFINITION. What the implementation fixes: the one open parameter of the core, `SHR_FLAG_MASK` (rule R5, decision D12). -/

namespace Sys2Proof

/-- The two admitted values of the named parameter `SHR_FLAG_MASK` (R5, R137, 90_conflicts.md C4). -/
inductive ShrFlagMask where
  /-- 0x0F: the normative value, the literal text of the source. -/
  | lowNibble
  /-- 0x01: the only other admitted value. -/
  | lowBit
  deriving DecidableEq, Repr

/-- The configuration of one core: fixed for its whole life, read by `SHR Vx, Vy` only. -/
structure Config where
  shrFlagMask : ShrFlagMask
  deriving DecidableEq, Repr

/-- "The model takes `SHR_FLAG_MASK` as a configuration field with the value 0x0F unless its user sets 0x01" (R5). -/
def Config.standard : Config := { shrFlagMask := .lowNibble }

end Sys2Proof
end

