-- ==== Sys2Proof/Machine/State.lean ====
section
/-! DEFINITION. The state of the core, as plain data: every piece of state that 10_state.md lists, and two inputs a run
is given (the key port of rule R30 and the configuration of rule R5). Then the reasons a step could stop, and reset. -/

namespace Sys2Proof.Machine

/-- STATUS (R29). -/
inductive Status where
  /-- 0: the core takes cycles. -/
  | run
  /-- 1: the core is halted by a fault until reset (R178). -/
  | fault
  deriving DecidableEq, Repr

/-- CAUSE (R29, R175). -/
inductive Cause where
  /-- 0: no fault. -/
  | none
  /-- 1: the fetched word is none of the 17 instructions (R171). -/
  | unimplementedOpcode
  /-- 2: a call with a full stack (R172). -/
  | stackOverflow
  /-- 3: a fetch (R173) or a sprite read (R174) outside the 4096 bytes. -/
  | addressRange
  deriving DecidableEq, Repr

/-- The 4096-byte memory (R26, R50) in canonical form: the bytes that differ from the reset contents, addresses strictly
rising. -/
abbrev Memory := List Host.Cell

/-- The framebuffer: 32 rows of 64 one-bit cells, `fb[r][c]`, true is on (R27). -/
abbrev Fb := Vector (Vector Bool 64) 32

/-- The whole state (10_state.md: "Nothing outside this file is state"). -/
structure State where
  /-- V0..VF, 8 bits each (R20). -/
  V : Vector Byte 16
  /-- The index register, 16 bits (R23). -/
  I : Addr
  /-- The program counter, 16 bits (R24). -/
  pc : Addr
  /-- The stack pointer, 0..16: the number of entries in use (R25). -/
  sp : Fin 17
  /-- The sixteen return addresses (R25). -/
  stack : Vector Addr 16
  /-- Memory, 0x000..0xFFF (R26). -/
  mem : Memory
  /-- The framebuffer (R27). -/
  fb : Fb
  /-- The "needs redraw" flag (R28). -/
  dirty : Bool
  /-- STATUS, 1 bit (R29). -/
  status : Status
  /-- CAUSE, 2 bits (R29). -/
  cause : Cause
  /-- INFO, 16 bits (R29). -/
  info : BitVec 16
  /-- What the host drives on the key port `keys[15:0]`; an input that no rule reads (R30). -/
  keys : BitVec 16
  /-- The parameter of the core, fixed for a run (R5). -/
  cfg : Config
  deriving DecidableEq, Repr

/-- Why a step would stop. No step does: every fault of the spec is a next state with STATUS = FAULT (R170). -/
inductive Fault where
  /-- Raised by a sprite read or a fetch that meets an address outside 0..4095, which "never happens: the cycle checks the
  addresses first" (R55). Safe: it would stop where the hardware does not go. -/
  | addressOutsideMemory (addr : Nat)
  deriving DecidableEq, Repr

/-- Why something is turned away. -/
inductive Refusal where
  /-- Raised by `exec` for an instruction that has no meaning yet; no instruction is left so. Safe. -/
  | notModelled (mnemonic : String)
  /-- Raised by the host's `load` of an image longer than 3584 bytes: "a longer image is refused by the load and no cycle
  runs" (R61, D23). Safe. -/
  | imageTooLong (length : Nat)
  /-- Raised by a host move out of its place: a `load` that does not follow `reset`, a `cycle` before `load`. "A model gives
  these forbidden actions no move" (R35, D28). Safe. -/
  | hostMoveForbidden
  deriving DecidableEq, Repr

/-- The machine right after reset (R36, R190). `keys` and `cfg` are no reset values of the core: the key port is driven by
the host and `cfg` is the parameter's default (notes/assumptions/2.md, 3.md). -/
def State.reset : State where
  V := Vector.replicate 16 0
  I := 0
  pc := 0x200
  sp := 0
  stack := Vector.replicate 16 0
  mem := []
  fb := Vector.replicate 32 (Vector.replicate 64 false)
  dirty := false
  status := .run
  cause := .none
  info := 0
  keys := 0
  cfg := Config.standard

end Sys2Proof.Machine
end

