-- ==== Sys2Proof/Machine/Ops.lean ====
section
/-! DEFINITION. The named operations over memory, registers, the call stack and the status registers, and raising a fault. -/

namespace Sys2Proof.Machine

/-! ## Memory (20_memory.md) -/

/-- What an address that is not listed reads as: the reset contents, 0x00 everywhere (R36). -/
def Memory.unlisted : Byte := 0

/-- The byte held at an address. -/
def Memory.read : Memory → Nat → Byte
  | [], _ => Memory.unlisted
  | (k, b) :: rest, a => if k = a then b else Memory.read rest a

/-- Put a byte at an address and keep the canonical form: a byte equal to the unlisted one is not listed. -/
def Memory.put : Memory → Nat → Byte → Memory
  | [], a, v => if v = Memory.unlisted then [] else [(a, v)]
  | (k, b) :: rest, a, v =>
    if a < k then (if v = Memory.unlisted then (k, b) :: rest else (a, v) :: (k, b) :: rest)
    else if a = k then (if v = Memory.unlisted then rest else (a, v) :: rest)
    else (k, b) :: Memory.put rest a v

/-- Addresses strictly rise from `lo` on, lie in 0..4095, and no listed byte equals the unlisted one. -/
def Memory.wfFrom : Nat → Memory → Bool
  | _, [] => true
  | lo, (k, b) :: rest => decide (lo ≤ k) && decide (k < 4096) && decide (b ≠ Memory.unlisted) && Memory.wfFrom (k + 1) rest

/-- The canonical form of memory. -/
def Memory.wf (m : Memory) : Bool := Memory.wfFrom 0 m

/-- `MemRead(addr, 1)`, "defined only for 0 <= addr <= 4095" (R8, R55); addresses do not wrap. -/
def memRead (m : Memory) (a : Nat) : Option Byte := if a < 4096 then some (m.read a) else none

/-- `n` bytes from `a` upwards, one `MemRead` each (R54, R157); none if one of them lies outside memory. -/
def memReadBytes (m : Memory) (a : Nat) : Nat → Option (List Byte)
  | 0 => some []
  | n + 1 =>
    match memRead m a with
    | none => none
    | some b =>
      match memReadBytes m (a + 1) n with
      | none => none
      | some bs => some (b :: bs)

/-- `MemWrite(a, 1, b)` for consecutive bytes (R61); performed by the host's load only (R8). -/
def Memory.putBytes (m : Memory) (a : Nat) : List Byte → Memory
  | [] => m
  | b :: bs => Memory.putBytes (m.put a b) (a + 1) bs

/-! ## General registers (rule R20) -/

/-- `V[r]`. -/
def State.readV (s : State) (r : Reg) : Byte := s.V[r.val]

/-- `V[r] <- v`. -/
def State.writeV (s : State) (r : Reg) (v : Byte) : State := { s with V := s.V.set r.val v }

/-! ## The program counter (rules R24, R93) -/

/-- `pc <- t`. -/
def State.setPc (s : State) (t : Addr) : State := { s with pc := t }

/-- The advance of an instruction that has set pc to its final destination (R93). -/
def advNone : Addr := 0

/-- The advance of every other instruction, one instruction width (R93, R5 `INSN_BYTES`). -/
def advInsn : Addr := 2

/-- The end of a completed cycle: `pc <- pc + adv`, "a plain 16-bit unsigned addition" (R90 step 6, R93). -/
def complete (adv : Addr) (s : State) : Host.Outcome State Fault Refusal := .next (s.setPc (s.pc + adv))

/-! ## The call stack (rule R25) -/

/-- `stack[sp] <- v; sp <- sp + 1`, or none when the stack is full (R111). -/
def State.push (s : State) (v : Addr) : Option State :=
  if h : s.sp.val < 16 then
    some { s with stack := s.stack.set s.sp.val v h, sp := ⟨s.sp.val + 1, by omega⟩ }
  else none

/-- `sp <- sp - 1`, and the entry the new sp indexes, which keeps its value (R101, D5); none when the stack is empty. -/
def State.pop (s : State) : Option (Addr × State) :=
  if h : 0 < s.sp.val then
    some (s.stack[s.sp.val - 1]'(by omega), { s with sp := ⟨s.sp.val - 1, by omega⟩ })
  else none

/-! ## Faults (60_exceptions.md)

There is no return from a fault beside this: "There is no return from a fault and no nesting" (R178). -/

/-- The state a fault leaves: STATUS, CAUSE and INFO, "and no other state changes" (R170). -/
def State.faulted (s : State) (c : Cause) (info : BitVec 16) : State := { s with status := .fault, cause := c, info := info }

/-- `raise F(info)` (R170): the cycle ends at once, no advance is added. -/
def raise (c : Cause) (info : BitVec 16) (s : State) : Host.Outcome State Fault Refusal := .next (s.faulted c info)

/-- The lowest out-of-range address an access starting at `a` touches, `max(a, 4096)` (R173, R174). -/
def firstOutside (a : Nat) : BitVec 16 := BitVec.ofNat 16 (max a 4096)

/-- The 1-bit code of STATUS (R29). -/
def Status.code : Status → BitVec 1
  | .run => 0
  | .fault => 1

/-- The 2-bit code of CAUSE (R175). -/
def Cause.code : Cause → BitVec 2
  | .none => 0
  | .unimplementedOpcode => 1
  | .stackOverflow => 2
  | .addressRange => 3

end Sys2Proof.Machine
end

