-- ==== Sys2Proof/Machine/Flags.lean ====
section
/-! DEFINITION. The values VF receives as a flag: carry, borrow, the masked shift source, collision (rule R21). -/

namespace Sys2Proof.Machine

/-- 1 or 0, as a flag register value. -/
def flagBit (b : Bool) : Byte := if b then 1 else 0

/-- `1 if a + b > 255 else 0` (R135). -/
def carryFlag (a b : Byte) : Byte := flagBit (decide (a.toNat + b.toNat > 255))

/-- `1 if a < b else 0`: 1 means that `a - b` borrows (R136, R138). -/
def borrowFlag (a b : Byte) : Byte := flagBit (decide (a.toNat < b.toNat))

/-- The value of `SHR_FLAG_MASK` (R5, R137). -/
def shrFlagMask : ShrFlagMask → Byte
  | .lowNibble => 0x0F
  | .lowBit => 0x01

/-- `SHL_FLAG_MASK` (R5, R139). -/
def shlFlagMask : Byte := 0xF0

/-- `V[y] & SHR_FLAG_MASK` (R137). -/
def shrFlag (m : ShrFlagMask) (b : Byte) : Byte := b &&& shrFlagMask m

/-- `V[y] & 0xF0`: the high nibble in place, not shifted down (R139). -/
def shlFlag (b : Byte) : Byte := b &&& shlFlagMask

/-- 1 if any collision, else 0 (R155). -/
def collisionFlag (collided : Bool) : Byte := flagBit collided

end Sys2Proof.Machine
end

