-- ==== Sys2Proof/Machine/Operands.lean ====
section
/-! DEFINITION. The operand forms of rule R73 and the results the operations compute from operand values: exact unsigned
arithmetic on naturals, narrowed once at the end (rules R6, R7). -/

namespace Sys2Proof.Machine

/-- `trunc8(a)`: the low 8 bits (R7). -/
def trunc8 (a : Nat) : Byte := BitVec.ofNat 8 a

/-- `nnn` as a pc value: zero-extended to 16 bits, not scaled (R73, R110). -/
def targetOf (nnn : Operand) : Addr := BitVec.ofNat 16 nnn.toNat

/-- `V[0] + nnn`: the exact unsigned sum, at most 4350, not masked to 12 bits (R150, D22). -/
def targetWithOffset (base : Byte) (nnn : Operand) : Addr := BitVec.ofNat 16 (base.toNat + nnn.toNat)

/-- `min(a + b, 255)`: the saturating sum of `7xkk` (R121). -/
def addSaturating (a b : Byte) : Byte := BitVec.ofNat 8 (min (a.toNat + b.toNat) 255)

/-- `trunc8(a + b)` (R135). -/
def addWrapping (a b : Byte) : Byte := trunc8 (a.toNat + b.toNat)

/-- `(a - b) mod 256`: "equals a - b if a >= b, else a - b + 256" (R136, R138). -/
def subWrapping (a b : Byte) : Byte := trunc8 (a.toNat + 256 - b.toNat)

/-- `a >> 1`: logical, bit 7 becomes 0 (R137). -/
def shiftRightOne (a : Byte) : Byte := a >>> 1

/-- `trunc8(a << 1)`: bit 0 becomes 0, bit 7 is dropped (R139). -/
def shiftLeftOne (a : Byte) : Byte := trunc8 (a.toNat * 2)

end Sys2Proof.Machine
end

