-- ==== Sys2Proof/Machine/Alu.lean ====
section
/-! DEFINITION. Family 0x8: register-register ALU operations (44_alu.md). The statements of each rule run in the order the
rule writes them (rule R9): the flag first, the result second. -/

namespace Sys2Proof.Machine

/-- `V[x] <- v`, no flag: the form of `8xy0` to `8xy3` (R131 to R134). -/
def aluPlain (x : Reg) (v : Byte) (s : State) : Host.Outcome State Fault Refusal := complete advInsn (s.writeV x v)

/-- `VF <- flag; V[x] <- v`, both computed before any write: the form of `8xy4`, `8xy5`, `8xy7` (R135, R136, R138, D11). -/
def aluFlagged (x : Reg) (flag v : Byte) (s : State) : Host.Outcome State Fault Refusal :=
  complete advInsn ((s.writeV VF flag).writeV x v)

/-- `8xy0 LD Vx, Vy` (R131). -/
def execLdReg (x y : Reg) (s : State) : Host.Outcome State Fault Refusal := aluPlain x (s.readV y) s

/-- `8xy1 OR Vx, Vy` (R132). -/
def execOrReg (x y : Reg) (s : State) : Host.Outcome State Fault Refusal := aluPlain x (s.readV x ||| s.readV y) s

/-- `8xy2 AND Vx, Vy` (R133). -/
def execAndReg (x y : Reg) (s : State) : Host.Outcome State Fault Refusal := aluPlain x (s.readV x &&& s.readV y) s

/-- `8xy3 XOR Vx, Vy` (R134). -/
def execXorReg (x y : Reg) (s : State) : Host.Outcome State Fault Refusal := aluPlain x (s.readV x ^^^ s.readV y) s

/-- `8xy4 ADD Vx, Vy` (R135). -/
def execAddReg (x y : Reg) (s : State) : Host.Outcome State Fault Refusal :=
  let a := s.readV x
  let b := s.readV y
  aluFlagged x (carryFlag a b) (addWrapping a b) s

/-- `8xy5 SUB Vx, Vy` (R136). -/
def execSubReg (x y : Reg) (s : State) : Host.Outcome State Fault Refusal :=
  let a := s.readV x
  let b := s.readV y
  aluFlagged x (borrowFlag a b) (subWrapping a b) s

/-- `8xy6 SHR Vx, Vy` (R137): the second statement reads `V[y]` again, after VF is written. -/
def execShrReg (x y : Reg) (s : State) : Host.Outcome State Fault Refusal :=
  let s₁ := s.writeV VF (shrFlag s.cfg.shrFlagMask (s.readV y))
  complete advInsn (s₁.writeV x (shiftRightOne (s₁.readV y)))

/-- `8xy7 SUBN Vx, Vy` (R138). -/
def execSubnReg (x y : Reg) (s : State) : Host.Outcome State Fault Refusal :=
  let a := s.readV x
  let b := s.readV y
  aluFlagged x (borrowFlag b a) (subWrapping b a) s

/-- `8xyE SHL Vx, Vy` (R139): VF, then `V[y]` (read again), then `V[x]` from the `V[y]` just written. -/
def execShlReg (x y : Reg) (s : State) : Host.Outcome State Fault Refusal :=
  let s₁ := s.writeV VF (shlFlag (s.readV y))
  let s₂ := s₁.writeV y (shiftLeftOne (s₁.readV y))
  complete advInsn (s₂.writeV x (s₂.readV y))

end Sys2Proof.Machine
end

