-- ==== Sys2Proof/Machine/Display.lean ====
section
/-! DEFINITION. The Display block (46_draw.md): clear, the XOR blit with collision, and the host's render. -/

namespace Sys2Proof.Machine

/-! ## Cells (rule R27) -/

/-- `fb[r][c]`. -/
def Fb.cell (fb : Fb) (r : Fin 32) (c : Fin 64) : Bool := fb[r.val][c.val]

/-- `fb[r][c] <- v`. -/
def Fb.setCell (fb : Fb) (r : Fin 32) (c : Fin 64) (v : Bool) : Fb := fb.set r.val (fb[r.val].set c.val v)

/-- Every cell off (R156). -/
def Fb.off : Fb := Vector.replicate 32 (Vector.replicate 64 false)

/-- `(y0 + row) mod 32` (R160). -/
def wrapRow (k : Nat) : Fin 32 := ⟨k % 32, Nat.mod_lt k (by decide)⟩

/-- `(x0 + col) mod 64` (R160). -/
def wrapCol (k : Nat) : Fin 64 := ⟨k % 64, Nat.mod_lt k (by decide)⟩

/-! ## The blit (rules R157, R159 to R161) -/

/-- `b[7 - col]`: bit 7 is the leftmost of the eight columns (R159, D16). -/
def spriteBit (b : Byte) (col : Nat) : Bool := b.getLsbD (7 - col)

/-- One pixel of the blit: the framebuffer and the collision so far, then with this pixel (R157, R161). -/
def drawPixel (x0 y0 row col : Nat) (bit : Bool) (d : Fb × Bool) : Fb × Bool :=
  let cx := wrapCol (x0 + col)
  let cy := wrapRow (y0 + row)
  let old := d.1.cell cy cx
  (d.1.setCell cy cx (old ^^ bit), d.2 || (old && bit))

/-- The eight columns of one sprite row. -/
def drawRow (x0 y0 row : Nat) (b : Byte) (d : Fb × Bool) : Fb × Bool :=
  [0, 1, 2, 3, 4, 5, 6, 7].foldl (fun d col => drawPixel x0 y0 row col (spriteBit b col) d) d

/-- The sprite's rows from row number `row` on, one byte a row. -/
def drawRows (x0 y0 : Nat) : Nat → List Byte → Fb × Bool → Fb × Bool
  | _, [], d => d
  | row, b :: bs, d => drawRows x0 y0 (row + 1) bs (drawRow x0 y0 row b d)

/-- `Display.draw_sprite` on the rows read from memory: the state with the sprite XORed in and `dirty` set, and the
collision (R157). -/
def State.drawSprite (s : State) (x0 y0 : Byte) (rows : List Byte) : State × Bool :=
  let d := drawRows x0.toNat y0.toNat 0 rows (s.fb, false)
  ({ s with fb := d.1, dirty := true }, d.2)

/-! ## Clear (rule R156) -/

/-- `Display.clear()`: "set every cell false, mark dirty". -/
def State.clearDisplay (s : State) : State := { s with fb := Fb.off, dirty := true }

/-! ## Render (rule R158) -/

/-- The colour of one painted block: "off = black, on = white". -/
inductive Colour where
  | black
  | white
  deriving DecidableEq, Repr

/-- The colour a cell is painted in (R158). -/
def blockColour (on : Bool) : Colour := if on then .white else .black

/-- What `render` paints: nothing unless dirty, else one block for each cell, row by row (R158). -/
def State.picture (s : State) : Option (Vector (Vector Colour 64) 32) :=
  if s.dirty then some (s.fb.map (fun row => row.map blockColour)) else none

/-- What `render` does to the state: "no-op unless dirty; otherwise paint …, then clear the dirty flag" (R158). -/
def State.render (s : State) : State := if s.dirty then { s with dirty := false } else s

end Sys2Proof.Machine
end

