-- ==== Sys2Proof/Machine/Draw.lean ====
section
/-! DEFINITION. Family 0xD: draw (46_draw.md). -/

namespace Sys2Proof.Machine

/-- `n > 0 and src + n - 1 > 4095`: a sprite byte would lie outside memory (R155, R174). -/
def spriteOutside (src : Nat) (n : Height) : Bool := decide (0 < n.val) && decide (src + n.val - 1 > 4095)

/-- `Dxyn DRW Vx, Vy, n` (R155): the range check before any write; then the blit of the `n` bytes at I at the coordinates
`(V[x], V[y])`; then `VF <- collision`. -/
def execDrw (x y : Reg) (n : Height) (s : State) : Host.Outcome State Fault Refusal :=
  let x0 := s.readV x
  let y0 := s.readV y
  let src := s.I.toNat
  if spriteOutside src n then raise .addressRange (firstOutside src) s
  else
    match memReadBytes s.mem src n.val with
    | none => .fault (.addressOutsideMemory src)
    | some rows =>
      let d := s.drawSprite x0 y0 rows
      complete advInsn (d.1.writeV VF (collisionFlag d.2))

end Sys2Proof.Machine
end

