-- ==== Sys2Proof/Machine/Immediate.lean ====
section
/-! DEFINITION. Families 0x6 and 0x7: load and add immediate (43_immediate.md). -/

namespace Sys2Proof.Machine

/-- `6xkk LD Vx, kk` (R120). -/
def execLdImm (x : Reg) (kk : Byte) (s : State) : Host.Outcome State Fault Refusal := complete advInsn (s.writeV x kk)

/-- `7xkk ADD Vx, kk` (R121): saturating, and VF is not written as a flag. -/
def execAddImm (x : Reg) (kk : Byte) (s : State) : Host.Outcome State Fault Refusal :=
  complete advInsn (s.writeV x (addSaturating (s.readV x) kk))

end Sys2Proof.Machine
end

