-- ==== Sys2Proof/Machine/JumpCall.lean ====
section
/-! DEFINITION. Families 0x1 and 0x2: jump and call (42_jump_call.md). -/

namespace Sys2Proof.Machine

/-- `1nnn JP nnn` (R110). The target is not checked. -/
def execJp (nnn : Operand) (s : State) : Host.Outcome State Fault Refusal := complete advNone (s.setPc (targetOf nnn))

/-- `2nnn CALL nnn` (R111): push the address of this instruction, or raise `StackOverflow(pc)` before any write (R172). -/
def execCall (nnn : Operand) (s : State) : Host.Outcome State Fault Refusal :=
  match s.push s.pc with
  | some s' => complete advNone (s'.setPc (targetOf nnn))
  | none => raise .stackOverflow s.pc s

end Sys2Proof.Machine
end

