-- ==== Sys2Proof/Machine/JumpOffset.lean ====
section
/-! DEFINITION. Family 0xB: jump with offset (45_jump_offset.md). -/

namespace Sys2Proof.Machine

/-- `Bnnn JP V0, nnn` (R150): pc receives the exact sum; it never faults itself. -/
def execJpV0 (nnn : Operand) (s : State) : Host.Outcome State Fault Refusal :=
  complete advNone (s.setPc (targetWithOffset (s.readV V0) nnn))

end Sys2Proof.Machine
end

