-- ==== Sys2Proof/Machine/Misc.lean ====
section
/-! DEFINITION. Family 0x0: clear display and return (41_misc.md). -/

namespace Sys2Proof.Machine

/-- `00E0 CLS` (R100). -/
def execCls (s : State) : Host.Outcome State Fault Refusal := complete advInsn s.clearDisplay

/-- `00EE RET` (R101): pop the stack into pc, or nothing when it is empty; then the advance of 2 in both cases (R94, D4). -/
def execRet (s : State) : Host.Outcome State Fault Refusal :=
  match s.pop with
  | some (entry, s') => complete advInsn (s'.setPc entry)
  | none => complete advInsn s

end Sys2Proof.Machine
end

