-- ==== Sys2Proof/Machine/Cycle.lean ====
section
/-! DEFINITION. One cycle: guard, range check, fetch, decode, execute, advance (rule R90); and placing a word where the
next cycle fetches. -/

namespace Sys2Proof.Machine

/-- The step-2 check: a cycle fetches only if both bytes lie in memory, `pc <= 4094` (R90, R173). Also the port
`pc_in_bounds` (R34). -/
def State.pcInBounds (s : State) : Bool := decide (s.pc.toNat ≤ 4094)

/-- The two bytes at pc and pc+1, composed big-endian (R52, R91); pc is not moved. -/
def State.fetch (s : State) : Option Insn :=
  match memRead s.mem s.pc.toNat, memRead s.mem (s.pc.toNat + 1) with
  | some hi, some lo => some (composeWord hi lo)
  | _, _ => none

/-- Steps 4 to 6 on a fetched word (R90). -/
def execWord (w : Insn) (s : State) : Host.Outcome State Fault Refusal :=
  match decodeWord w with
  | .ok i => exec i s
  | .error _ => raise .unimplementedOpcode w s

/-- `cycle()` of R90. -/
def cycle (s : State) : Host.Outcome State Fault Refusal :=
  match s.status with
  | .fault => .next s
  | .run =>
    if s.pcInBounds then
      match s.fetch with
      | some w => execWord w s
      | none => .fault (.addressOutsideMemory (s.pc.toNat + 1))
    else raise .addressRange (firstOutside s.pc.toNat) s

/-- A state that will fetch: a halted core is set running and a pc beyond the last fetch address goes to the entry point;
any other state is left alone. -/
def State.readyToFetch (s : State) : State :=
  let s₁ : State := match s.status with
    | .run => s
    | .fault => { s with status := .run, cause := .none, info := 0 }
  if s₁.pcInBounds then s₁ else s₁.setPc 0x200

/-- The word stored at pc and pc+1, high byte first: what the host's load does for a program (R61, R80). -/
def State.placeWord (s : State) (w : Insn) : State :=
  let s₁ := s.readyToFetch
  { s₁ with mem := s₁.mem.putBytes s₁.pc.toNat (wordBytes w) }

end Sys2Proof.Machine
end

