-- ==== Sys2Proof/Machine/Step.lean ====
section
/-! DEFINITION. The step of the machine is one cycle (rule R90), and the host's way to place one instruction. -/

namespace Sys2Proof.Machine

/-- "A cycle is the core's only step" (R90). -/
def step (s : State) : Host.Outcome State Fault Refusal := cycle s

/-- The state whose next step fetches and runs the table word `w` of `nbits` bits. -/
def State.withFetchWord (s : State) (nbits w : Nat) : State := s.placeWord (tableWord nbits w)

end Sys2Proof.Machine
end

