-- ==== Sys2Proof/Machine/HostPort.lean ====
section
/-! DEFINITION. The host's ports of rule R34 (reset, load, cycle, keys, render; fb, dirty, status, cause, info,
pc_in_bounds) and the order in which the host may use them (rule R35, the boot sequence of rule R191). -/

namespace Sys2Proof.Machine

/-! ## What each port does to the core -/

/-- `reset`: "every piece of state to the value of R36 in one step", also when halted (R190). The key port is driven by the
host and the parameter belongs to the core, so neither is changed (R36 `keys`, R5). -/
def State.hostReset (s : State) : State := { State.reset with keys := s.keys, cfg := s.cfg }

/-- `load(bytes)`: the image byte for byte from 0x200 (R61). -/
def State.loadImage (s : State) (image : List Byte) : State := { s with mem := s.mem.putBytes 0x200 image }

/-- `load(bytes)` with its check: "a longer image is refused by the load" (R61, D23). -/
def State.hostLoad (s : State) (image : List Byte) : Host.Outcome State Fault Refusal :=
  if imageFits image then .next (s.loadImage image) else .refused (.imageTooLong image.length)

/-- `keys[15:0]`: the host drives the key states (R30, R34). -/
def State.driveKeys (s : State) (k : BitVec 16) : State := { s with keys := k }

/-- The values the core puts out (R34). -/
structure Outputs where
  fb : Fb
  dirty : Bool
  status : BitVec 1
  cause : BitVec 2
  info : BitVec 16
  pcInBounds : Bool
  deriving DecidableEq, Repr

/-- The output ports of R34. -/
def State.outputs (s : State) : Outputs where
  fb := s.fb
  dirty := s.dirty
  status := s.status.code
  cause := s.cause.code
  info := s.info
  pcInBounds := s.pcInBounds

/-! ## The order of the host's moves (rules R35, R95, R191) -/

/-- Where a core stands in its boot sequence. This is the host's place, not state of the core. -/
inductive LaunchPhase where
  /-- Constructed, not yet reset by this host. -/
  | constructed
  /-- `reset` has been issued and nothing loaded yet. -/
  | wasReset
  /-- An image has been loaded and no cycle has run. -/
  | loaded
  /-- At least one cycle has been requested. -/
  | cycling
  deriving DecidableEq, Repr

/-- The host's events (R34); each lands between cycles, since a cycle is one step (R35). -/
inductive HostEvent where
  | reset
  | load (image : List Byte)
  | cycle
  | keys (k : BitVec 16)
  | render
  deriving DecidableEq, Repr

/-- A core and its place in the boot sequence. -/
structure Rig where
  core : State
  phase : LaunchPhase
  deriving DecidableEq, Repr

/-- The core's answer carried to the rig. -/
def Rig.put (phase : LaunchPhase) : Host.Outcome State Fault Refusal → Host.Outcome Rig Fault Refusal
  | .next s => .next { core := s, phase := phase }
  | .fault r => .fault r
  | .refused r => .refused r

/-- "allowed only after reset and before the first cycle", once (R34 `load`, R61). -/
def LaunchPhase.mayLoad : LaunchPhase → Bool
  | .wasReset => true
  | .constructed | .loaded | .cycling => false

/-- "issue `reset` then `load` before the first `cycle`" (R35). -/
def LaunchPhase.mayCycle : LaunchPhase → Bool
  | .loaded | .cycling => true
  | .constructed | .wasReset => false

/-- One move of the host. -/
def Rig.move (e : HostEvent) (r : Rig) : Host.Outcome Rig Fault Refusal :=
  match e with
  | .reset => .next { core := r.core.hostReset, phase := .wasReset }
  | .load image => if r.phase.mayLoad then Rig.put .loaded (r.core.hostLoad image) else .refused .hostMoveForbidden
  | .cycle => if r.phase.mayCycle then Rig.put .cycling (step r.core) else .refused .hostMoveForbidden
  | .keys k => .next { r with core := r.core.driveKeys k }
  | .render => .next { r with core := r.core.render }

end Sys2Proof.Machine
end

