-- ==== Sys2Proof/Safety.lean ====
section
/-! DEFINITION. What counts as a safe run (rules R13, R97, R177, R197), and the words claims are stated in: what a cycle
fetches, the frames of the instruction shapes, and the closed form of a sprite pixel. -/

namespace Sys2Proof.Machine

/-! ## Runs -/

/-- "every claim about a program takes STATUS = RUN at its end as part of what it proves" (R177). -/
abbrev State.Running (s : State) : Prop := s.status = .run

/-- Every in-use stack entry is the address of a `2nnn` that executed, hence at most 4094 (R93, R97). -/
abbrev State.EntriesInReach (s : State) : Prop := ∀ k : Fin 16, k.val < s.sp.val → (s.stack[k.val]).toNat ≤ 4094

/-- The launch invariants of R97: `sp <= 16` (by the type of sp), `stack[k] <= 4094` for every k < sp, STATUS = RUN,
CAUSE = 0, and memory of 4096 bytes in canonical form. -/
abbrev State.LaunchOk (s : State) : Prop :=
  s.Running ∧ s.cause = .none ∧ s.EntriesInReach ∧ s.mem.wf = true

/-- What holds between cycles (R97, R175, R197): memory canonical, in-use entries at most 4094, pc at most 4350, CAUSE
telling whether the core is halted, INFO zero until a fault. -/
abbrev State.Inv (s : State) : Prop :=
  s.mem.wf = true ∧ s.EntriesInReach ∧ s.pc.toNat ≤ 4350 ∧ (s.status = .run ↔ s.cause = .none) ∧
    (s.status = .run → s.info = 0)

/-- The next cycle fetches the word `w`: the core runs, both bytes lie in memory, and `w` is the byte at pc times 256 plus
the byte at pc+1 (R52, R90, R91). -/
abbrev State.FetchesWord (s : State) (w : Insn) : Prop :=
  s.Running ∧ s.pc.toNat ≤ 4094 ∧
    w.toNat = (s.mem.read s.pc.toNat).toNat * 256 + (s.mem.read (s.pc.toNat + 1)).toNat

/-- The idle loop that ends a run: "a `JP nnn` instruction located at address `nnn` (encoding `1nnn` at `pc = nnn`)"
(R13). -/
abbrev State.AtIdleLoop (s : State) : Prop := s.FetchesWord (BitVec.ofNat 16 (0x1000 + s.pc.toNat)) ∧ s.pc.toNat ≤ 4095

/-! ## Frames: everything but the named fields is unchanged, and every byte of memory reads as before -/

/-- Every byte of memory reads as before. -/
abbrev SameMemory (s t : State) : Prop := ∀ a, t.mem.read a = s.mem.read a

/-- Only pc may differ. -/
abbrev OnlyPc (s t : State) : Prop := t = { s with pc := t.pc } ∧ SameMemory s t

/-- Only general registers and pc may differ. -/
abbrev OnlyVPc (s t : State) : Prop := t = { s with V := t.V, pc := t.pc } ∧ SameMemory s t

/-- Only the call stack and pc may differ. -/
abbrev OnlyStackPc (s t : State) : Prop := t = { s with sp := t.sp, stack := t.stack, pc := t.pc } ∧ SameMemory s t

/-- Only the framebuffer, `dirty` and pc may differ. -/
abbrev OnlyDisplayPc (s t : State) : Prop := t = { s with fb := t.fb, dirty := t.dirty, pc := t.pc } ∧ SameMemory s t

/-- Only general registers, the framebuffer, `dirty` and pc may differ. -/
abbrev OnlyVDisplayPc (s t : State) : Prop :=
  t = { s with V := t.V, fb := t.fb, dirty := t.dirty, pc := t.pc } ∧ SameMemory s t

/-- Only STATUS, CAUSE and INFO may differ: the effect of a fault (R170). -/
abbrev OnlyFaultRegs (s t : State) : Prop :=
  t = { s with status := t.status, cause := t.cause, info := t.info } ∧ SameMemory s t

/-- Every general register outside the list is unchanged. -/
abbrev SameRegsBut (changed : List Reg) (s t : State) : Prop := ∀ r, r ∉ changed → t.readV r = s.readV r

/-! ## The sprite of a draw -/

/-- Whether the sprite of height `n` at I, drawn at `(x0, y0)`, has a 1 for the cell in row `r`, column `c`: the sprite row
is the distance of `r` below `y0` on the wrapped grid, the sprite column the distance of `c` right of `x0`, and the bit of
column offset 0 is bit 7 (R157, R159, R160). -/
def spritePixel (s : State) (x0 y0 : Byte) (n : Height) (r : Fin 32) (c : Fin 64) : Bool :=
  let row := (r.val + 32 - y0.toNat % 32) % 32
  let col := (c.val + 64 - x0.toNat % 64) % 64
  decide (row < n.val) && decide (col < 8) && (s.mem.read (s.I.toNat + row)).getLsbD (7 - col)

end Sys2Proof.Machine
end

