-- ==== Sys2Proof/Certificates/Slice0/Obligations.lean ====
section
/-! DEFINITION. The statements for the provers. A docstring names the rule a statement formalises; where a clause rests on
one of the spec's own decisions D<n> (92_eei_decisions.md) or on an entry of this model's log, the docstring says so. -/

open Sys2Proof Sys2Proof.Machine

/-! ## Encoding -/

/-- Decoding the bytes of an instruction gives the instruction and the bytes behind it (30_encoding.md, R71, R75, R80). -/
def Obligations.DecodeOfEncodeIsTheInstruction : Prop :=
  ∀ (i : Instr) (rest : List Byte), decode (encode i ++ rest) = .ok (i, rest)

/-- Each legal pair of bytes has one meaning: encoding what was decoded gives the same bytes (30_encoding.md, R71, R75). -/
def Obligations.EncodeOfDecodeIsTheBytes : Prop :=
  ∀ (hi lo : Byte) (rest rest' : List Byte) (i : Instr),
    decode (hi :: lo :: rest) = .ok (i, rest') → encode i = [hi, lo] ∧ rest' = rest

/-- The decision tree of R74 and the mask and match table of R75 accept the same words, an accepted word matches the row
of the instruction it decodes to, and every other word is rejected with its exact value (R76). Family 0x0 matching on the
whole word is the spec's decision D9. -/
def Obligations.DecoderAgreesWithOpcodeTable : Prop :=
  ∀ w : Insn,
    ((∃ i, decodeWord w = .ok i) ↔ ∃ row ∈ opcodeTable, w &&& row.mask = row.pattern) ∧
    (∀ i, decodeWord w = .ok i → ∃ row, opcodeTable[i.rowNumber]? = some row ∧ w &&& row.mask = row.pattern) ∧
    ((∀ row ∈ opcodeTable, w &&& row.mask ≠ row.pattern) → decodeWord w = .error (.unimplementedOpcode w))

/-- "No two rows of the opcode table overlap" (R74). -/
def Obligations.OpcodeRowsDoNotOverlap : Prop :=
  ∀ (w : Insn) (j k : Nat) (row row' : OpcodeRow),
    opcodeTable[j]? = some row → opcodeTable[k]? = some row' →
    w &&& row.mask = row.pattern → w &&& row'.mask = row'.pattern → j = k

/-- "Every operand is an unsigned number taken straight from the word" (R73): each operand of a decoded instruction is the
number its bits of the word spell. -/
def Obligations.OperandsAreFieldsOfTheWord : Prop :=
  ∀ (w : Insn) (i : Instr), decodeWord w = .ok i →
    match i with
    | .cls | .ret => True
    | .jp nnn | .call nnn | .jpV0 nnn => nnn.toNat = w.toNat % 4096 ∧ (targetOf nnn).toNat = w.toNat % 4096
    | .ldImm x kk | .addImm x kk => x.val = w.toNat / 256 % 16 ∧ kk.toNat = w.toNat % 256
    | .ldReg x y | .orReg x y | .andReg x y | .xorReg x y | .addReg x y | .subReg x y | .shrReg x y | .subnReg x y
    | .shlReg x y => x.val = w.toNat / 256 % 16 ∧ y.val = w.toNat / 16 % 16
    | .drw x y n => x.val = w.toNat / 256 % 16 ∧ y.val = w.toNat / 16 % 16 ∧ n.val = w.toNat % 16

/-- Words of the spec's own examples (R80, R91, R110, R121, R137, R139, R155) decode to the instructions they stand for. -/
def Obligations.WrittenWordsDecode : Prop :=
  decodeWord 0x632A = .ok (.ldImm 3 0x2A) ∧ decodeWord 0x6A01 = .ok (.ldImm 0xA 0x01) ∧
  decodeWord 0x1ABC = .ok (.jp 0xABC) ∧ decodeWord 0x700A = .ok (.addImm 0 0x0A) ∧
  decodeWord 0x8106 = .ok (.shrReg 1 0) ∧ decodeWord 0x812E = .ok (.shlReg 1 2) ∧
  decodeWord 0xD012 = .ok (.drw 0 1 2) ∧ decodeWord 0x00EE = .ok .ret ∧
  decodeWord 0xEEEE = .error (.unimplementedOpcode 0xEEEE)

/-! ## The cycle -/

/-- R90 and R91: the word is the byte at pc times 256 plus the byte at pc+1, and the instruction it decodes to executes on a
state whose pc has not moved (the check of step 2 is the spec's decision D3; that `exec` is steps 5 and 6 of the cycle is
this model's choice, notes/assumptions/17.md; which bits are the operands is `OperandsAreFieldsOfTheWord`). -/
def Obligations.StepRunsTheDecodedInstruction : Prop :=
  ∀ (s : State) (w : Insn) (i : Instr), s.FetchesWord w → decodeWord w = .ok i → step s = exec i s

/-- R170 and R171: a fetched word that matches no row of the opcode map raises `UnimplementedOpcode`, code 1, with INFO the
word itself, at any pc from 0 to 4094; nothing else changes (what a fault leaves is the spec's decision D7, the code its
decision D8, whole-word matching of family 0x0 its decision D9; that the fault is a next state is
notes/assumptions/1.md, the codes and bounds notes/assumptions/18.md). -/
def Obligations.IllegalWordRaisesUnimplementedOpcode : Prop :=
  ∀ (s : State) (w : Insn), s.FetchesWord w → (∀ row ∈ opcodeTable, w &&& row.mask ≠ row.pattern) →
    ∃ t, step s = .next t ∧ t.status = .fault ∧ t.cause = .unimplementedOpcode ∧ t.cause.code = 1 ∧ t.info = w ∧
      OnlyFaultRegs s t

/-- R140: `8xyn` with n = 0x8, 0x9, 0xA, 0xB, 0xC, 0xD or 0xF raises `UnimplementedOpcode` with the word, and no register
is written; nothing else changes either, pc, stack, memory and display included (R170; what a fault leaves is the spec's
decision D7; that the fault is a next state is notes/assumptions/1.md). -/
def Obligations.UncoveredAluNibbleRaises : Prop :=
  ∀ (s : State) (w : Insn), s.FetchesWord w → w.toNat / 4096 = 0x8 →
    w.toNat % 16 ∈ [0x8, 0x9, 0xA, 0xB, 0xC, 0xD, 0xF] →
    ∃ t, step s = .next t ∧ t.status = .fault ∧ t.cause = .unimplementedOpcode ∧ t.info = w ∧
      (∀ r, t.readV r = s.readV r) ∧ OnlyFaultRegs s t

/-- A running core whose pc is above 4094 raises `AddressRange`, code 3, with INFO `max(pc, 4096)` (R173; the bound is the
spec's decision D3, what a fault leaves its decision D7, the code its decision D8; notes/assumptions/1.md, 18.md). -/
def Obligations.FetchOutsideMemoryRaises : Prop :=
  ∀ s : State, s.Running → 4094 < s.pc.toNat →
    ∃ t, step s = .next t ∧ t.status = .fault ∧ t.cause = .addressRange ∧ t.cause.code = 3 ∧
      t.info.toNat = max s.pc.toNat 4096 ∧ OnlyFaultRegs s t

/-- While STATUS = FAULT every cycle does nothing, however many are requested (R178, the spec's decision D7). -/
def Obligations.HaltedCoreIgnoresCycles : Prop :=
  ∀ (k : Nat) (s : State), s.status = .fault → Sys2Proof.core.run k s = .next s

/-- Every instruction and every cycle answers a next state, from every state: there is no refused and no stuck outcome
inside the hardware (R12, the spec's decision D7). -/
def Obligations.EveryCycleAnswersANextState : Prop :=
  (∀ (i : Instr) (s : State), ∃ t, exec i s = .next t) ∧ ∀ s : State, ∃ t, step s = .next t

/-- R175 and R176: when a running core faults. It faults exactly when pc is above 4094, or the fetched word is illegal, or
it is a call with a full stack, or a draw that reads outside memory; then only STATUS, CAUSE and INFO change (decisions
D3, D6, D7, D17). -/
def Obligations.CycleFaultsExactlyWhenTheTableSays : Prop :=
  ∀ s t : State, s.Running → step s = .next t →
    (t.status = .fault ↔
      4094 < s.pc.toNat ∨
      ∃ w, s.FetchesWord w ∧
        ((∀ row ∈ opcodeTable, w &&& row.mask ≠ row.pattern) ∨
         (∃ nnn, decodeWord w = .ok (.call nnn) ∧ s.sp.val = 16) ∨
         (∃ x y n, decodeWord w = .ok (.drw x y n) ∧ 0 < n.val ∧ 4096 < s.I.toNat + n.val))) ∧
    (t.status = .fault → t.cause ≠ .none ∧ OnlyFaultRegs s t)

/-- R180: apart from a call with a full stack and a draw that reads outside memory, no instruction faults, on any operand
values: STATUS, CAUSE and INFO stay as they were. -/
def Obligations.NothingElseFaults : Prop :=
  ∀ (i : Instr) (s : State),
    (∀ nnn, i = .call nnn → s.sp.val ≠ 16) →
    (∀ x y n, i = .drw x y n → n.val = 0 ∨ s.I.toNat + n.val ≤ 4096) →
    ∃ t, exec i s = .next t ∧ t.status = s.status ∧ t.cause = s.cause ∧ t.info = s.info

/-- No rule reads `keys` or `dirty`: after any number of cycles everything else is the same whatever the host put on the
keys and whether or not it rendered (R30, R95, inferences the spec marks as its own). -/
def Obligations.KeysAndDirtyNeverMatter : Prop :=
  ∀ (n : Nat) (s t : State) (k : BitVec 16) (d : Bool), Sys2Proof.core.run n s = .next t →
    ∃ u : State, Sys2Proof.core.run n ({ s with keys := k, dirty := d } : State) = .next u ∧
      u = { t with keys := k, dirty := u.dirty }

/-- Over any number of cycles memory, I, the key input and the parameter stay as they were (R23, R54, R60, R197, the spec's
decision D29; keys and parameter are held in State by this model, notes/assumptions/2.md and 3.md). -/
def Obligations.RunsNeverWriteMemoryOrIndex : Prop :=
  ∀ (n : Nat) (s t : State), Sys2Proof.core.run n s = .next t →
    t.mem = s.mem ∧ SameMemory s t ∧ t.I = s.I ∧ t.keys = s.keys ∧ t.cfg = s.cfg

/-- At an idle loop every further cycle leaves the whole state unchanged (R13, the spec's decision D27). -/
def Obligations.IdleLoopIsAFixedPoint : Prop :=
  ∀ (n : Nat) (s : State), s.AtIdleLoop → Sys2Proof.core.run n s = .next s

/-! ## Reset and the invariant -/

/-- R36 and R190: what reset leaves, from any state. The values of V, I, pc and memory are the source's; sp, the stack, the
framebuffer, `dirty`, STATUS, CAUSE and INFO are the spec's decisions D7 and D20; that keys and parameter stay is this
model's choice (notes/assumptions/2.md, 3.md). -/
def Obligations.ResetSetsEveryPiece : Prop :=
  ∀ s : State,
    (∀ r, s.hostReset.readV r = 0) ∧ s.hostReset.I = 0 ∧ s.hostReset.pc = 0x200 ∧
    (∀ a, a < 4096 → memRead s.hostReset.mem a = some 0) ∧ s.hostReset.sp = 0 ∧
    (∀ k : Fin 16, s.hostReset.stack[k.val] = 0) ∧ (∀ r c, s.hostReset.fb.cell r c = false) ∧
    s.hostReset.dirty = false ∧ s.hostReset.status = .run ∧ s.hostReset.cause = .none ∧ s.hostReset.info = 0 ∧
    s.hostReset.keys = s.keys ∧ s.hostReset.cfg = s.cfg

/-- The invariant and the launch invariants of R97 hold at reset. -/
def Obligations.ResetMeetsTheInvariant : Prop := State.reset.Inv ∧ State.reset.LaunchOk

/-- R197: from every state that meets the invariant, a cycle gives one that meets it: memory canonical, every in-use stack
entry at most 4094, pc at most 4350, CAUSE none exactly while the core runs, INFO zero until a fault. -/
def Obligations.StepKeepsTheInvariant : Prop :=
  ∀ s t : State, s.Inv → step s = .next t → t.Inv

/-- Memory has one representation: canonical memories that read alike are equal (a law of this model's memory,
notes/assumptions/4.md). -/
def Obligations.MemoriesThatReadAlikeAreEqual : Prop :=
  ∀ m m' : Memory, m.wf = true → m'.wf = true → (∀ a, a < 4096 → m.read a = m'.read a) → m = m'

/-! ## Family 0x0 -/

/-- R100: `CLS` is the word 0x00E0 exactly; it turns every cell off, sets `dirty`, adds 2 to pc and changes nothing else. -/
def Obligations.ClearTurnsEveryCellOff : Prop :=
  (∀ w, decodeWord w = .ok .cls ↔ w = 0x00E0) ∧
  ∀ s : State, ∃ t, exec .cls s = .next t ∧ (∀ r c, t.fb.cell r c = false) ∧ t.dirty = true ∧ t.pc = s.pc + 2 ∧
    OnlyDisplayPc s t

/-- R101: `RET` pops the most recent entry into pc and adds 2, or only adds 2 on an empty stack; no entry changes (the
advance in both cases is the spec's decision D4, the kept entry its decision D5). -/
def Obligations.ReturnPopsOrSkips : Prop :=
  ∀ s : State, ∃ t, exec .ret s = .next t ∧
    (∀ k : Fin 16, s.sp.val = k.val + 1 → t.sp.val = k.val ∧ t.pc = s.stack[k.val] + 2) ∧
    (s.sp.val = 0 → t.sp.val = 0 ∧ t.pc = s.pc + 2) ∧
    t.stack = s.stack ∧ OnlyStackPc s t

/-! ## Families 0x1, 0x2 and 0xB -/

/-- R110: `JP nnn` is `(w & 0xF000) == 0x1000`; it sets pc to `nnn`, any `nnn`, and changes nothing else; a target of 0xFFF
makes the next cycle of a running core raise `AddressRange`; a jump to its own address leaves the state as it was. -/
def Obligations.JumpSetsPc : Prop :=
  (∀ w : Insn, (∃ nnn, decodeWord w = .ok (.jp nnn)) ↔ w &&& 0xF000 = 0x1000) ∧
  ∀ (nnn : Operand) (s : State), ∃ t, exec (.jp nnn) s = .next t ∧ t.pc.toNat = nnn.toNat ∧ OnlyPc s t ∧
    (nnn = 0xFFF → s.Running → ∃ u, step t = .next u ∧ u.status = .fault ∧ u.cause = .addressRange) ∧
    (s.pc.toNat = nnn.toNat → t = s)

/-- R111: `CALL nnn` with room on the stack writes its own address into the next free entry, moves sp up by one, sets pc to
`nnn` and changes nothing else (what is pushed is the spec's decision D4). -/
def Obligations.CallPushesItsOwnAddress : Prop :=
  ∀ (nnn : Operand) (s : State) (k : Fin 16), s.sp.val = k.val →
    ∃ t, exec (.call nnn) s = .next t ∧ t.stack[k.val] = s.pc ∧
      (∀ j : Fin 16, j ≠ k → t.stack[j.val] = s.stack[j.val]) ∧ t.sp.val = k.val + 1 ∧ t.pc.toNat = nnn.toNat ∧
      OnlyStackPc s t

/-- R111 and R172: `CALL nnn` with sp = 16 raises `StackOverflow`, code 2, with INFO its own address; nothing else changes
(the spec's decision D6; what a fault leaves is its decision D7, the code its decision D8; notes/assumptions/1.md,
18.md). -/
def Obligations.CallOnAFullStackRaises : Prop :=
  ∀ (nnn : Operand) (s : State), s.sp.val = 16 →
    ∃ t, exec (.call nnn) s = .next t ∧ t.status = .fault ∧ t.cause = .stackOverflow ∧ t.cause.code = 2 ∧
      t.info = s.pc ∧ OnlyFaultRegs s t

/-- "Call then return": wherever pc stands when the subroutine returns, the pc after the return is the address behind the
call, and sp and every entry in use before the call are as they were (R94, R101, R111, the spec's decision D4). -/
def Obligations.CallThenReturnComesBack : Prop :=
  ∀ (nnn : Operand) (s : State) (p : Addr), s.sp.val < 16 →
    ∃ t u, exec (.call nnn) s = .next t ∧ exec .ret { t with pc := p } = .next u ∧ u.pc = s.pc + 2 ∧ u.sp = s.sp ∧
      ∀ j : Fin 16, j.val < s.sp.val → u.stack[j.val] = s.stack[j.val]

/-- R150: `JP V0, nnn` sets pc to the exact sum `V[0] + nnn`, up to 4350, and changes nothing else (past 0xFFF: the spec's
decision D22). -/
def Obligations.JumpWithOffsetSetsPcToTheExactSum : Prop :=
  ∀ (nnn : Operand) (s : State), ∃ t, exec (.jpV0 nnn) s = .next t ∧
    t.pc.toNat = (s.readV V0).toNat + nnn.toNat ∧ OnlyPc s t

/-! ## Families 0x6 and 0x7 -/

/-- R120: `LD Vx, kk` is `(w & 0xF000) == 0x6000`; it sets `V[x]` to `kk` whatever it was, adds 2 to pc and changes nothing
else: VF receives `kk` as data exactly when x = 0xF. -/
def Obligations.LoadImmediateSetsVx : Prop :=
  (∀ w : Insn, (∃ x kk, decodeWord w = .ok (.ldImm x kk)) ↔ w &&& 0xF000 = 0x6000) ∧
  ∀ (x : Reg) (kk : Byte) (s : State), ∃ t, exec (.ldImm x kk) s = .next t ∧ t.readV x = kk ∧
    SameRegsBut [x] s t ∧ t.pc = s.pc + 2 ∧ OnlyVPc s t

/-- R121: `ADD Vx, kk` is `(w & 0xF000) == 0x7000`; it sets `V[x]` to `min(V[x] + kk, 255)`, adds 2 to pc and changes
nothing else: VF is not written as a flag, and is the destination when x = 0xF. -/
def Obligations.AddImmediateSaturates : Prop :=
  (∀ w : Insn, (∃ x kk, decodeWord w = .ok (.addImm x kk)) ↔ w &&& 0xF000 = 0x7000) ∧
  ∀ (x : Reg) (kk : Byte) (s : State), ∃ t, exec (.addImm x kk) s = .next t ∧
    (t.readV x).toNat = min ((s.readV x).toNat + kk.toNat) 255 ∧
    SameRegsBut [x] s t ∧ t.pc = s.pc + 2 ∧ OnlyVPc s t

/-! ## Family 0x8 -/

/-- The instruction answers a next state in which `V[x]` holds `v`, every other register is as before, pc has moved by 2
and nothing else has changed. -/
def WritesOneRegister (i : Instr) (x : Reg) (v : Byte) (s : State) : Prop :=
  ∃ t, exec i s = .next t ∧ t.readV x = v ∧ SameRegsBut [x] s t ∧ t.pc = s.pc + 2 ∧ OnlyVPc s t

/-- The instruction answers a next state in which `V[x]` holds the value `v`, VF holds the flag `f` unless x = 0xF (then
the result has overwritten it), every other register is as before, pc has moved by 2 and nothing else has changed. -/
def WritesFlagThenResult (i : Instr) (x : Reg) (f v : Nat) (s : State) : Prop :=
  ∃ t, exec i s = .next t ∧ (t.readV x).toNat = v ∧ (x ≠ VF → (t.readV VF).toNat = f) ∧
    SameRegsBut [x, VF] s t ∧ t.pc = s.pc + 2 ∧ OnlyVPc s t

/-- R131 to R134: copy, OR, AND, XOR write `V[x]` only (that they leave VF alone is the spec's decision D18). -/
def Obligations.CopyAndLogicWriteVxOnly : Prop :=
  ∀ (x y : Reg) (s : State),
    WritesOneRegister (.ldReg x y) x (s.readV y) s ∧
    WritesOneRegister (.orReg x y) x (s.readV x ||| s.readV y) s ∧
    WritesOneRegister (.andReg x y) x (s.readV x &&& s.readV y) s ∧
    WritesOneRegister (.xorReg x y) x (s.readV x ^^^ s.readV y) s

/-- R135: VF is 1 exactly when the sum exceeds 255 and `V[x]` is its low 8 bits (VF = 0 otherwise and the order of the two
writes are the spec's decisions D10 and D11). -/
def Obligations.AddSetsCarryAndWraps : Prop :=
  ∀ (x y : Reg) (s : State),
    WritesFlagThenResult (.addReg x y) x
      (if (s.readV x).toNat + (s.readV y).toNat > 255 then 1 else 0)
      (((s.readV x).toNat + (s.readV y).toNat) % 256) s

/-- R136: VF is 1 exactly when `V[x] < V[y]` and `V[x]` is the wrapped difference (decisions D10 and D11). -/
def Obligations.SubtractSetsBorrowAndWraps : Prop :=
  ∀ (x y : Reg) (s : State),
    WritesFlagThenResult (.subReg x y) x
      (if (s.readV x).toNat < (s.readV y).toNat then 1 else 0)
      (if (s.readV y).toNat ≤ (s.readV x).toNat then (s.readV x).toNat - (s.readV y).toNat
       else (s.readV x).toNat + 256 - (s.readV y).toNat) s

/-- R138: VF is 1 exactly when `V[y] < V[x]` and `V[x]` is `V[y] - V[x]` wrapped (decisions D10 and D11; the flag's sense is
an inference the spec marks as its own). -/
def Obligations.SubtractReversedSetsBorrowAndWraps : Prop :=
  ∀ (x y : Reg) (s : State),
    WritesFlagThenResult (.subnReg x y) x
      (if (s.readV y).toNat < (s.readV x).toNat then 1 else 0)
      (if (s.readV x).toNat ≤ (s.readV y).toNat then (s.readV y).toNat - (s.readV x).toNat
       else (s.readV y).toNat + 256 - (s.readV x).toNat) s

/-- R137, for both values of `SHR_FLAG_MASK` (the spec's decision D12): VF receives `V[y]` under the mask, then `V[x]`
receives `V[y]` shifted right, where `V[y]` is the masked VF when y = 0xF. -/
def Obligations.ShiftRightMasksThenShifts : Prop :=
  ∀ (x y : Reg) (s : State) (flag : Nat),
    flag = (match s.cfg.shrFlagMask with
      | .lowNibble => (s.readV y).toNat % 16
      | .lowBit => (s.readV y).toNat % 2) →
    WritesFlagThenResult (.shrReg x y) x flag ((if y = VF then flag else (s.readV y).toNat) / 2) s

/-- R139: VF receives the high nibble of `V[y]` in place, then `V[y]` is shifted left (the masked VF when y = 0xF), then
`V[x]` receives the shifted value; VF keeps the flag unless it is x or y (the mask is fixed by the spec's decision D12). -/
def Obligations.ShiftLeftMasksThenShiftsBoth : Prop :=
  ∀ (x y : Reg) (s : State) (flag shifted : Nat),
    flag = (s.readV y).toNat / 16 * 16 →
    shifted = (if y = VF then flag else (s.readV y).toNat) * 2 % 256 →
    ∃ t, exec (.shlReg x y) s = .next t ∧ (t.readV x).toNat = shifted ∧ (t.readV y).toNat = shifted ∧
      (x ≠ VF → y ≠ VF → (t.readV VF).toNat = flag) ∧ SameRegsBut [x, y, VF] s t ∧ t.pc = s.pc + 2 ∧ OnlyVPc s t

/-- R141, the column x = y = 0xF: what VF holds when it is both operands and the destination (an inference the spec marks
as its own, with 0x0F standing for `SHR_FLAG_MASK`). -/
def Obligations.VFAsBothOperands : Prop :=
  ∀ (s : State), s.cfg.shrFlagMask = .lowNibble →
    ∀ f, f = (s.readV VF).toNat →
      ∀ p ∈ ([(.ldReg VF VF, f), (.orReg VF VF, f), (.andReg VF VF, f), (.xorReg VF VF, 0), (.addReg VF VF, 2 * f % 256),
          (.subReg VF VF, 0), (.shrReg VF VF, f % 16 / 2), (.subnReg VF VF, 0), (.shlReg VF VF, f / 16 * 16 * 2 % 256)] :
          List (Instr × Nat)),
        ∃ t, exec p.1 s = .next t ∧ (t.readV VF).toNat = p.2

/-- R130: every instruction of the family completes with advance 2 and changes general registers and pc only. -/
def Obligations.AluFamilyChangesRegistersOnly : Prop :=
  ∀ (x y : Reg) (s : State),
    ∀ i ∈ [Instr.ldReg x y, .orReg x y, .andReg x y, .xorReg x y, .addReg x y, .subReg x y, .shrReg x y, .subnReg x y,
        .shlReg x y],
      ∃ t, exec i s = .next t ∧ t.pc = s.pc + 2 ∧ OnlyVPc s t

/-! ## Family 0xD and the Display -/

/-- R155, R157, R159 to R161: a draw whose sprite lies in memory XORs the sprite into the wrapped grid, sets `dirty`, writes
1 to VF exactly when a cell that was on meets a 1 bit and 0 otherwise, adds 2 to pc and changes nothing else (decisions D13
to D17, D19 and D30; the bit order is general knowledge, D16). -/
def Obligations.DrawXorsTheSprite : Prop :=
  ∀ (x y : Reg) (n : Height) (s : State), n.val = 0 ∨ s.I.toNat + n.val ≤ 4096 →
    ∃ t, exec (.drw x y n) s = .next t ∧
      (∀ r c, t.fb.cell r c = (s.fb.cell r c ^^ spritePixel s (s.readV x) (s.readV y) n r c)) ∧ t.dirty = true ∧
      ((∃ r c, s.fb.cell r c = true ∧ spritePixel s (s.readV x) (s.readV y) n r c = true) → t.readV VF = 1) ∧
      ((∀ r c, s.fb.cell r c = true → spritePixel s (s.readV x) (s.readV y) n r c = false) → t.readV VF = 0) ∧
      SameRegsBut [VF] s t ∧ t.pc = s.pc + 2 ∧ OnlyVDisplayPc s t

/-- R155 and R174: a draw with a sprite byte at 4096 or above raises `AddressRange`, code 3, with INFO `max(I, 4096)`, and
draws nothing (the spec's decision D17; what a fault leaves is its decision D7, the code its decision D8;
notes/assumptions/1.md, 18.md). -/
def Obligations.DrawOutsideMemoryRaises : Prop :=
  ∀ (x y : Reg) (n : Height) (s : State), 0 < n.val → 4096 < s.I.toNat + n.val →
    ∃ t, exec (.drw x y n) s = .next t ∧ t.status = .fault ∧ t.cause = .addressRange ∧ t.cause.code = 3 ∧
      t.info.toNat = max s.I.toNat 4096 ∧ OnlyFaultRegs s t

/-- R163 (a) and (b): a second draw with equal coordinates, height, I and sprite bytes leaves every cell as it was before
the first, and its VF is 1 exactly when a sprite bit is 1 at a cell that is on after the first draw, in particular when the
first draw turned a cell on (an inference the spec marks as its own). -/
def Obligations.DrawingTwiceRestores : Prop :=
  ∀ (x y : Reg) (n : Height) (s t s' : State), n.val = 0 ∨ s.I.toNat + n.val ≤ 4096 →
    exec (.drw x y n) s = .next t →
    s'.fb = t.fb → s'.readV x = s.readV x → s'.readV y = s.readV y → s'.I = s.I →
    (∀ k, k < n.val → s'.mem.read (s.I.toNat + k) = s.mem.read (s.I.toNat + k)) →
    ∃ u, exec (.drw x y n) s' = .next u ∧ (∀ r c, u.fb.cell r c = s.fb.cell r c) ∧
      (u.readV VF = 1 ↔ ∃ r c, t.fb.cell r c = true ∧ spritePixel s (s.readV x) (s.readV y) n r c = true) ∧
      ((∃ r c, s.fb.cell r c = false ∧ t.fb.cell r c = true) → u.readV VF = 1)

/-- R163 (c) and (d): a sprite of zero bytes changes no cell and gives VF = 0; a draw on a clear framebuffer gives VF = 0
(an inference the spec marks as its own). -/
def Obligations.BlankSpriteAndClearScreenGiveNoCollision : Prop :=
  ∀ (x y : Reg) (n : Height) (s : State), n.val = 0 ∨ s.I.toNat + n.val ≤ 4096 →
    ((∀ k, k < n.val → s.mem.read (s.I.toNat + k) = 0) →
      ∃ t, exec (.drw x y n) s = .next t ∧ (∀ r c, t.fb.cell r c = s.fb.cell r c) ∧ t.readV VF = 0) ∧
    ((∀ r c, s.fb.cell r c = false) → ∃ t, exec (.drw x y n) s = .next t ∧ t.readV VF = 0)

/-- R158: `render` paints nothing unless dirty, else each block white exactly where its cell is on; it clears `dirty` and
changes nothing else, so a second render does nothing (when it happens is the spec's decision D26). -/
def Obligations.RenderOnlyClearsDirty : Prop :=
  ∀ s : State,
    s.render = { s with dirty := false } ∧ s.render.render = s.render ∧
    (s.dirty = false → s.picture = none ∧ s.render = s) ∧
    (s.dirty = true → ∃ p, s.picture = some p ∧
      ∀ (r : Fin 32) (c : Fin 64), p[r.val][c.val] = (if s.fb.cell r c then Colour.white else Colour.black))

/-! ## Who writes what -/

/-- R21 and R22: an instruction that changes VF is one of the six that write it as a flag, or has VF as its destination
(that no other writes it is the spec's decision D18). -/
def Obligations.VFChangesOnlyAsFlagOrDestination : Prop :=
  ∀ (i : Instr) (s t : State), exec i s = .next t → t.readV VF ≠ s.readV VF →
    match i with
    | .addReg _ _ | .subReg _ _ | .shrReg _ _ | .subnReg _ _ | .shlReg _ _ | .drw _ _ _ => True
    | .ldImm x _ | .addImm x _ | .ldReg x _ | .orReg x _ | .andReg x _ | .xorReg x _ => x = VF
    | .cls | .ret | .jp _ | .call _ | .jpV0 _ => False

/-- R25, R27 and R28: only `2nnn` writes the stack array or raises sp, only `00EE` lowers sp, only `00E0` and `Dxyn` change
the framebuffer or `dirty`, no instruction clears `dirty`. -/
def Obligations.StackAndDisplayHaveTheirOwnWriters : Prop :=
  ∀ (i : Instr) (s t : State), exec i s = .next t →
    (t.stack ≠ s.stack → ∃ nnn, i = .call nnn) ∧
    (s.sp.val < t.sp.val → ∃ nnn, i = .call nnn) ∧
    (t.sp.val < s.sp.val → i = .ret) ∧
    (t.fb ≠ s.fb ∨ t.dirty ≠ s.dirty → i = .cls ∨ ∃ x y n, i = .drw x y n) ∧
    (s.dirty = true → t.dirty = true)

/-! ## The host's ports -/

/-- R61: `load` of an image of at most 3584 bytes puts byte k at 0x200 + k, leaves every other byte and everything else
alone; a longer image is refused (the bound is the spec's decision D23). -/
def Obligations.LoadPlacesTheImage : Prop :=
  ∀ (s : State) (image : List Byte), s.mem.wf = true →
    (image.length ≤ 3584 →
      ∃ t, s.hostLoad image = .next t ∧ t = { s with mem := t.mem } ∧ t.mem.wf = true ∧
        (∀ k b, image[k]? = some b → t.mem.read (0x200 + k) = b) ∧
        ∀ a, (a < 0x200 ∨ 0x200 + image.length ≤ a) → t.mem.read a = s.mem.read a) ∧
    (3584 < image.length → s.hostLoad image = .refused (.imageTooLong image.length))

/-- R191 and R35: from any core, reset then load gives a state that meets the launch invariants with pc at 0x200 and the
image in memory, and the next cycle is a step of it (decisions D20, D23, D24 and D28). -/
def Obligations.BootSequenceLaunches : Prop :=
  ∀ (r : Rig) (image : List Byte), image.length ≤ 3584 →
    ∃ r₁ r₂ : Rig, Rig.move .reset r = .next r₁ ∧ Rig.move (.load image) r₁ = .next r₂ ∧
      r₂.core.LaunchOk ∧ r₂.core.Inv ∧ r₂.core.pc = 0x200 ∧
      (∀ k b, image[k]? = some b → r₂.core.mem.read (0x200 + k) = b) ∧
      Rig.move .cycle r₂ = Rig.put .cycling (step r₂.core)

/-- R34 and R35: a cycle before `load` and a load that does not follow `reset` have no move (the spec's decision D28; the
phases are this model's, notes/assumptions/8.md). -/
def Obligations.HostMovesOutOfPlaceAreRefused : Prop :=
  ∀ (r : Rig) (image : List Byte),
    (r.phase = .constructed ∨ r.phase = .wasReset → Rig.move .cycle r = .refused .hostMoveForbidden) ∧
    (r.phase ≠ .wasReset → Rig.move (.load image) r = .refused .hostMoveForbidden)

/-- A word placed at pc is the word the next cycle fetches (the model's stand-in for a loaded program,
notes/assumptions/7.md; byte order R52, R80). -/
def Obligations.PlacedWordIsFetched : Prop :=
  ∀ (s : State) (w : Insn), s.Running → s.pc.toNat ≤ 4094 → s.mem.wf = true →
    (s.withFetchWord 16 w.toNat).FetchesWord w ∧
    s.withFetchWord 16 w.toNat = { s with mem := (s.withFetchWord 16 w.toNat).mem }
end

