-- ==== Sys2Proof/Laws/State.lean ====
section
/-! SUPPORT. One lemma per field per update of the state, so that no proof unfolds a record update. -/

namespace Sys2Proof.Machine

/-! ## `writeV` -/

@[simp] theorem State.writeV_V (s : State) (r : Reg) (v : Byte) : (s.writeV r v).V = s.V.set r.val v := rfl
@[simp] theorem State.writeV_I (s : State) (r : Reg) (v : Byte) : (s.writeV r v).I = s.I := rfl
@[simp] theorem State.writeV_pc (s : State) (r : Reg) (v : Byte) : (s.writeV r v).pc = s.pc := rfl
@[simp] theorem State.writeV_sp (s : State) (r : Reg) (v : Byte) : (s.writeV r v).sp = s.sp := rfl
@[simp] theorem State.writeV_stack (s : State) (r : Reg) (v : Byte) : (s.writeV r v).stack = s.stack := rfl
@[simp] theorem State.writeV_mem (s : State) (r : Reg) (v : Byte) : (s.writeV r v).mem = s.mem := rfl
@[simp] theorem State.writeV_fb (s : State) (r : Reg) (v : Byte) : (s.writeV r v).fb = s.fb := rfl
@[simp] theorem State.writeV_dirty (s : State) (r : Reg) (v : Byte) : (s.writeV r v).dirty = s.dirty := rfl
@[simp] theorem State.writeV_status (s : State) (r : Reg) (v : Byte) : (s.writeV r v).status = s.status := rfl
@[simp] theorem State.writeV_cause (s : State) (r : Reg) (v : Byte) : (s.writeV r v).cause = s.cause := rfl
@[simp] theorem State.writeV_info (s : State) (r : Reg) (v : Byte) : (s.writeV r v).info = s.info := rfl
@[simp] theorem State.writeV_keys (s : State) (r : Reg) (v : Byte) : (s.writeV r v).keys = s.keys := rfl
@[simp] theorem State.writeV_cfg (s : State) (r : Reg) (v : Byte) : (s.writeV r v).cfg = s.cfg := rfl

/-! ## `setPc` -/

@[simp] theorem State.setPc_V (s : State) (t : Addr) : (s.setPc t).V = s.V := rfl
@[simp] theorem State.setPc_I (s : State) (t : Addr) : (s.setPc t).I = s.I := rfl
@[simp] theorem State.setPc_pc (s : State) (t : Addr) : (s.setPc t).pc = t := rfl
@[simp] theorem State.setPc_sp (s : State) (t : Addr) : (s.setPc t).sp = s.sp := rfl
@[simp] theorem State.setPc_stack (s : State) (t : Addr) : (s.setPc t).stack = s.stack := rfl
@[simp] theorem State.setPc_mem (s : State) (t : Addr) : (s.setPc t).mem = s.mem := rfl
@[simp] theorem State.setPc_fb (s : State) (t : Addr) : (s.setPc t).fb = s.fb := rfl
@[simp] theorem State.setPc_dirty (s : State) (t : Addr) : (s.setPc t).dirty = s.dirty := rfl
@[simp] theorem State.setPc_status (s : State) (t : Addr) : (s.setPc t).status = s.status := rfl
@[simp] theorem State.setPc_cause (s : State) (t : Addr) : (s.setPc t).cause = s.cause := rfl
@[simp] theorem State.setPc_info (s : State) (t : Addr) : (s.setPc t).info = s.info := rfl
@[simp] theorem State.setPc_keys (s : State) (t : Addr) : (s.setPc t).keys = s.keys := rfl
@[simp] theorem State.setPc_cfg (s : State) (t : Addr) : (s.setPc t).cfg = s.cfg := rfl

/-! ## `faulted` -/

@[simp] theorem State.faulted_V (s : State) (c : Cause) (info : BitVec 16) : (s.faulted c info).V = s.V := rfl
@[simp] theorem State.faulted_I (s : State) (c : Cause) (info : BitVec 16) : (s.faulted c info).I = s.I := rfl
@[simp] theorem State.faulted_pc (s : State) (c : Cause) (info : BitVec 16) : (s.faulted c info).pc = s.pc := rfl
@[simp] theorem State.faulted_sp (s : State) (c : Cause) (info : BitVec 16) : (s.faulted c info).sp = s.sp := rfl
@[simp] theorem State.faulted_stack (s : State) (c : Cause) (info : BitVec 16) : (s.faulted c info).stack = s.stack := rfl
@[simp] theorem State.faulted_mem (s : State) (c : Cause) (info : BitVec 16) : (s.faulted c info).mem = s.mem := rfl
@[simp] theorem State.faulted_fb (s : State) (c : Cause) (info : BitVec 16) : (s.faulted c info).fb = s.fb := rfl
@[simp] theorem State.faulted_dirty (s : State) (c : Cause) (info : BitVec 16) : (s.faulted c info).dirty = s.dirty := rfl
@[simp] theorem State.faulted_status (s : State) (c : Cause) (info : BitVec 16) : (s.faulted c info).status = .fault := rfl
@[simp] theorem State.faulted_cause (s : State) (c : Cause) (info : BitVec 16) : (s.faulted c info).cause = c := rfl
@[simp] theorem State.faulted_info (s : State) (c : Cause) (info : BitVec 16) : (s.faulted c info).info = info := rfl
@[simp] theorem State.faulted_keys (s : State) (c : Cause) (info : BitVec 16) : (s.faulted c info).keys = s.keys := rfl
@[simp] theorem State.faulted_cfg (s : State) (c : Cause) (info : BitVec 16) : (s.faulted c info).cfg = s.cfg := rfl

/-! ## `clearDisplay` -/

@[simp] theorem State.clearDisplay_V (s : State) : (s.clearDisplay).V = s.V := rfl
@[simp] theorem State.clearDisplay_I (s : State) : (s.clearDisplay).I = s.I := rfl
@[simp] theorem State.clearDisplay_pc (s : State) : (s.clearDisplay).pc = s.pc := rfl
@[simp] theorem State.clearDisplay_sp (s : State) : (s.clearDisplay).sp = s.sp := rfl
@[simp] theorem State.clearDisplay_stack (s : State) : (s.clearDisplay).stack = s.stack := rfl
@[simp] theorem State.clearDisplay_mem (s : State) : (s.clearDisplay).mem = s.mem := rfl
@[simp] theorem State.clearDisplay_fb (s : State) : (s.clearDisplay).fb = Fb.off := rfl
@[simp] theorem State.clearDisplay_dirty (s : State) : (s.clearDisplay).dirty = true := rfl
@[simp] theorem State.clearDisplay_status (s : State) : (s.clearDisplay).status = s.status := rfl
@[simp] theorem State.clearDisplay_cause (s : State) : (s.clearDisplay).cause = s.cause := rfl
@[simp] theorem State.clearDisplay_info (s : State) : (s.clearDisplay).info = s.info := rfl
@[simp] theorem State.clearDisplay_keys (s : State) : (s.clearDisplay).keys = s.keys := rfl
@[simp] theorem State.clearDisplay_cfg (s : State) : (s.clearDisplay).cfg = s.cfg := rfl

/-! ## `drawSprite` -/

@[simp] theorem State.drawSprite_V (s : State) (x0 y0 : Byte) (rows : List Byte) : (s.drawSprite x0 y0 rows).1.V = s.V := rfl
@[simp] theorem State.drawSprite_I (s : State) (x0 y0 : Byte) (rows : List Byte) : (s.drawSprite x0 y0 rows).1.I = s.I := rfl
@[simp] theorem State.drawSprite_pc (s : State) (x0 y0 : Byte) (rows : List Byte) : (s.drawSprite x0 y0 rows).1.pc = s.pc := rfl
@[simp] theorem State.drawSprite_sp (s : State) (x0 y0 : Byte) (rows : List Byte) : (s.drawSprite x0 y0 rows).1.sp = s.sp := rfl
@[simp] theorem State.drawSprite_stack (s : State) (x0 y0 : Byte) (rows : List Byte) : (s.drawSprite x0 y0 rows).1.stack = s.stack := rfl
@[simp] theorem State.drawSprite_mem (s : State) (x0 y0 : Byte) (rows : List Byte) : (s.drawSprite x0 y0 rows).1.mem = s.mem := rfl
@[simp] theorem State.drawSprite_fb (s : State) (x0 y0 : Byte) (rows : List Byte) : (s.drawSprite x0 y0 rows).1.fb = (drawRows x0.toNat y0.toNat 0 rows (s.fb, false)).1 := rfl
@[simp] theorem State.drawSprite_dirty (s : State) (x0 y0 : Byte) (rows : List Byte) : (s.drawSprite x0 y0 rows).1.dirty = true := rfl
@[simp] theorem State.drawSprite_status (s : State) (x0 y0 : Byte) (rows : List Byte) : (s.drawSprite x0 y0 rows).1.status = s.status := rfl
@[simp] theorem State.drawSprite_cause (s : State) (x0 y0 : Byte) (rows : List Byte) : (s.drawSprite x0 y0 rows).1.cause = s.cause := rfl
@[simp] theorem State.drawSprite_info (s : State) (x0 y0 : Byte) (rows : List Byte) : (s.drawSprite x0 y0 rows).1.info = s.info := rfl
@[simp] theorem State.drawSprite_keys (s : State) (x0 y0 : Byte) (rows : List Byte) : (s.drawSprite x0 y0 rows).1.keys = s.keys := rfl
@[simp] theorem State.drawSprite_cfg (s : State) (x0 y0 : Byte) (rows : List Byte) : (s.drawSprite x0 y0 rows).1.cfg = s.cfg := rfl

/-! ## `render` -/

@[simp] theorem State.render_V (s : State) : (s.render).V = s.V := by unfold State.render; split <;> simp_all
@[simp] theorem State.render_I (s : State) : (s.render).I = s.I := by unfold State.render; split <;> simp_all
@[simp] theorem State.render_pc (s : State) : (s.render).pc = s.pc := by unfold State.render; split <;> simp_all
@[simp] theorem State.render_sp (s : State) : (s.render).sp = s.sp := by unfold State.render; split <;> simp_all
@[simp] theorem State.render_stack (s : State) : (s.render).stack = s.stack := by unfold State.render; split <;> simp_all
@[simp] theorem State.render_mem (s : State) : (s.render).mem = s.mem := by unfold State.render; split <;> simp_all
@[simp] theorem State.render_fb (s : State) : (s.render).fb = s.fb := by unfold State.render; split <;> simp_all
@[simp] theorem State.render_dirty (s : State) : (s.render).dirty = false := by unfold State.render; split <;> simp_all
@[simp] theorem State.render_status (s : State) : (s.render).status = s.status := by unfold State.render; split <;> simp_all
@[simp] theorem State.render_cause (s : State) : (s.render).cause = s.cause := by unfold State.render; split <;> simp_all
@[simp] theorem State.render_info (s : State) : (s.render).info = s.info := by unfold State.render; split <;> simp_all
@[simp] theorem State.render_keys (s : State) : (s.render).keys = s.keys := by unfold State.render; split <;> simp_all
@[simp] theorem State.render_cfg (s : State) : (s.render).cfg = s.cfg := by unfold State.render; split <;> simp_all

/-! ## `loadImage` -/

@[simp] theorem State.loadImage_V (s : State) (image : List Byte) : (s.loadImage image).V = s.V := rfl
@[simp] theorem State.loadImage_I (s : State) (image : List Byte) : (s.loadImage image).I = s.I := rfl
@[simp] theorem State.loadImage_pc (s : State) (image : List Byte) : (s.loadImage image).pc = s.pc := rfl
@[simp] theorem State.loadImage_sp (s : State) (image : List Byte) : (s.loadImage image).sp = s.sp := rfl
@[simp] theorem State.loadImage_stack (s : State) (image : List Byte) : (s.loadImage image).stack = s.stack := rfl
@[simp] theorem State.loadImage_mem (s : State) (image : List Byte) : (s.loadImage image).mem = s.mem.putBytes 0x200 image := rfl
@[simp] theorem State.loadImage_fb (s : State) (image : List Byte) : (s.loadImage image).fb = s.fb := rfl
@[simp] theorem State.loadImage_dirty (s : State) (image : List Byte) : (s.loadImage image).dirty = s.dirty := rfl
@[simp] theorem State.loadImage_status (s : State) (image : List Byte) : (s.loadImage image).status = s.status := rfl
@[simp] theorem State.loadImage_cause (s : State) (image : List Byte) : (s.loadImage image).cause = s.cause := rfl
@[simp] theorem State.loadImage_info (s : State) (image : List Byte) : (s.loadImage image).info = s.info := rfl
@[simp] theorem State.loadImage_keys (s : State) (image : List Byte) : (s.loadImage image).keys = s.keys := rfl
@[simp] theorem State.loadImage_cfg (s : State) (image : List Byte) : (s.loadImage image).cfg = s.cfg := rfl

/-! ## `driveKeys` -/

@[simp] theorem State.driveKeys_V (s : State) (k : BitVec 16) : (s.driveKeys k).V = s.V := rfl
@[simp] theorem State.driveKeys_I (s : State) (k : BitVec 16) : (s.driveKeys k).I = s.I := rfl
@[simp] theorem State.driveKeys_pc (s : State) (k : BitVec 16) : (s.driveKeys k).pc = s.pc := rfl
@[simp] theorem State.driveKeys_sp (s : State) (k : BitVec 16) : (s.driveKeys k).sp = s.sp := rfl
@[simp] theorem State.driveKeys_stack (s : State) (k : BitVec 16) : (s.driveKeys k).stack = s.stack := rfl
@[simp] theorem State.driveKeys_mem (s : State) (k : BitVec 16) : (s.driveKeys k).mem = s.mem := rfl
@[simp] theorem State.driveKeys_fb (s : State) (k : BitVec 16) : (s.driveKeys k).fb = s.fb := rfl
@[simp] theorem State.driveKeys_dirty (s : State) (k : BitVec 16) : (s.driveKeys k).dirty = s.dirty := rfl
@[simp] theorem State.driveKeys_status (s : State) (k : BitVec 16) : (s.driveKeys k).status = s.status := rfl
@[simp] theorem State.driveKeys_cause (s : State) (k : BitVec 16) : (s.driveKeys k).cause = s.cause := rfl
@[simp] theorem State.driveKeys_info (s : State) (k : BitVec 16) : (s.driveKeys k).info = s.info := rfl
@[simp] theorem State.driveKeys_keys (s : State) (k : BitVec 16) : (s.driveKeys k).keys = k := rfl
@[simp] theorem State.driveKeys_cfg (s : State) (k : BitVec 16) : (s.driveKeys k).cfg = s.cfg := rfl

/-! ## `hostReset` -/

@[simp] theorem State.hostReset_V (s : State) : s.hostReset.V = State.reset.V := rfl
@[simp] theorem State.hostReset_I (s : State) : s.hostReset.I = State.reset.I := rfl
@[simp] theorem State.hostReset_pc (s : State) : s.hostReset.pc = State.reset.pc := rfl
@[simp] theorem State.hostReset_sp (s : State) : s.hostReset.sp = State.reset.sp := rfl
@[simp] theorem State.hostReset_stack (s : State) : s.hostReset.stack = State.reset.stack := rfl
@[simp] theorem State.hostReset_mem (s : State) : s.hostReset.mem = State.reset.mem := rfl
@[simp] theorem State.hostReset_fb (s : State) : s.hostReset.fb = State.reset.fb := rfl
@[simp] theorem State.hostReset_dirty (s : State) : s.hostReset.dirty = State.reset.dirty := rfl
@[simp] theorem State.hostReset_status (s : State) : s.hostReset.status = State.reset.status := rfl
@[simp] theorem State.hostReset_cause (s : State) : s.hostReset.cause = State.reset.cause := rfl
@[simp] theorem State.hostReset_info (s : State) : s.hostReset.info = State.reset.info := rfl
@[simp] theorem State.hostReset_keys (s : State) : s.hostReset.keys = s.keys := rfl
@[simp] theorem State.hostReset_cfg (s : State) : s.hostReset.cfg = s.cfg := rfl

end Sys2Proof.Machine
end

