-- ==== Sys2Proof/Laws/Ops.lean ====
section
/-! SUPPORT. What the shared operations over memory, registers, the stack and the fault registers do, said once. -/

namespace Sys2Proof.Machine

/-! ## Memory: canonical form and the read-after-write laws -/

theorem Memory.wfFrom_cons (lo k : Nat) (b : Byte) (m : Memory) :
    Memory.wfFrom lo ((k, b) :: m) = true ↔
      lo ≤ k ∧ k < 4096 ∧ b ≠ Memory.unlisted ∧ Memory.wfFrom (k + 1) m = true := by
  simp [Memory.wfFrom, and_assoc]

theorem Memory.wfFrom_mono {lo lo' : Nat} (h : lo' ≤ lo) : ∀ m : Memory, Memory.wfFrom lo m = true → Memory.wfFrom lo' m = true
  | [], _ => rfl
  | (k, b) :: m, hm => by
    rw [Memory.wfFrom_cons] at hm ⊢
    exact ⟨by omega, hm.2⟩

theorem Memory.read_below {lo a : Nat} (h : a < lo) : ∀ m : Memory, Memory.wfFrom lo m = true → m.read a = Memory.unlisted
  | [], _ => rfl
  | (k, b) :: m, hm => by
    rw [Memory.wfFrom_cons] at hm
    have hka : k ≠ a := by omega
    simp only [Memory.read, if_neg hka]
    exact Memory.read_below (by omega) m hm.2.2.2

theorem Memory.put_wfFrom {a : Nat} (v : Byte) (ha : a < 4096) :
    ∀ (m : Memory) (lo : Nat), lo ≤ a → Memory.wfFrom lo m = true → Memory.wfFrom lo (m.put a v) = true
  | [], lo, hlo, _ => by
    by_cases hv : v = Memory.unlisted <;> simp [Memory.put, Memory.wfFrom, hv, hlo, ha]
  | (k, b) :: m, lo, hlo, hm => by
    have hm' := hm
    rw [Memory.wfFrom_cons] at hm'
    obtain ⟨h1, h2, h3, h4⟩ := hm'
    unfold Memory.put
    split
    · split
      · exact hm
      · rename_i hak hv
        simp only [Memory.wfFrom_cons]
        exact ⟨hlo, ha, hv, by omega, h2, h3, h4⟩
    · split
      · rename_i hak
        subst hak
        split
        · exact Memory.wfFrom_mono (by omega) m h4
        · rename_i hv
          rw [Memory.wfFrom_cons]
          exact ⟨h1, h2, hv, h4⟩
      · rw [Memory.wfFrom_cons]
        exact ⟨h1, h2, h3, Memory.put_wfFrom v ha m (k + 1) (by omega) h4⟩

/-- A write inside memory keeps the canonical form. -/
theorem Memory.put_wf {m : Memory} {a : Nat} (v : Byte) (ha : a < 4096) (hm : m.wf = true) : (m.put a v).wf = true :=
  Memory.put_wfFrom v ha m 0 (Nat.zero_le a) hm

theorem Memory.read_put_from (a : Nat) (v : Byte) (a' : Nat) :
    ∀ (m : Memory) (lo : Nat), Memory.wfFrom lo m = true → (m.put a v).read a' = if a' = a then v else m.read a'
  | [], _, _ => by
    by_cases hv : v = Memory.unlisted <;> by_cases ha : a = a' <;> simp [Memory.put, Memory.read, hv, ha, eq_comm]
  | (k, b) :: m, lo, hm => by
    have hm' := hm
    rw [Memory.wfFrom_cons] at hm'
    obtain ⟨h1, h2, h3, h4⟩ := hm'
    unfold Memory.put
    split
    · rename_i hak
      split
      · rename_i hv
        by_cases h : a' = a
        · rw [if_pos h, h, hv]
          exact Memory.read_below (lo := k) hak _ (by rw [Memory.wfFrom_cons]; exact ⟨Nat.le_refl k, h2, h3, h4⟩)
        · rw [if_neg h]
      · by_cases h : a = a'
        · simp [Memory.read, h]
        · rw [if_neg (Ne.symm h), Memory.read, if_neg h]
    · split
      · rename_i hak
        subst hak
        split
        · rename_i hv
          by_cases h : a = a'
          · rw [if_pos h.symm, hv, ← h]
            exact Memory.read_below (Nat.lt_succ_self a) m h4
          · rw [if_neg (Ne.symm h), Memory.read, if_neg h]
        · by_cases h : a = a'
          · simp [Memory.read, h]
          · simp [Memory.read, h, Ne.symm h]
      · rename_i hak hne
        by_cases h : k = a'
        · have : a' ≠ a := by omega
          simp [Memory.read, h, this]
        · simp only [Memory.read, if_neg h]
          exact Memory.read_put_from a v a' m (k + 1) h4

/-- Read after write: the byte written at its own address, the old byte everywhere else. -/
theorem Memory.read_put {m : Memory} (hm : m.wf = true) (a : Nat) (v : Byte) (a' : Nat) :
    (m.put a v).read a' = if a' = a then v else m.read a' :=
  Memory.read_put_from a v a' m 0 hm

/-- Consecutive writes inside memory keep the canonical form. -/
theorem Memory.putBytes_wf : ∀ (bs : List Byte) {m : Memory} (a : Nat), a + bs.length ≤ 4096 → m.wf = true →
    (m.putBytes a bs).wf = true
  | [], _, _, _, hm => hm
  | b :: bs, m, a, ha, hm => by
    simp only [List.length_cons] at ha
    exact Memory.putBytes_wf bs (a + 1) (by omega) (Memory.put_wf b (by omega) hm)

theorem memRead_inside {m : Memory} {a : Nat} (h : a < 4096) : memRead m a = some (m.read a) := if_pos h

theorem memRead_outside {m : Memory} {a : Nat} (h : 4096 ≤ a) : memRead m a = none := if_neg (by omega)

/-- Reading bytes that all lie in memory gives them in order. -/
theorem memReadBytes_inside (m : Memory) : ∀ (n a : Nat), a + n ≤ 4096 →
    memReadBytes m a n = some ((List.range' a n).map m.read)
  | 0, _, _ => rfl
  | n + 1, a, h => by
    simp [memReadBytes, memRead_inside (m := m) (show a < 4096 by omega), memReadBytes_inside m n (a + 1) (by omega),
      List.range'_succ]

/-! ## General registers -/

@[simp] theorem State.readV_writeV_same (s : State) (r : Reg) (v : Byte) : (s.writeV r v).readV r = v := by
  simp [State.readV, State.writeV]

@[simp] theorem State.readV_writeV_other (s : State) {r r' : Reg} (v : Byte) (h : r' ≠ r) :
    (s.writeV r v).readV r' = s.readV r' := by
  have : r.val ≠ r'.val := fun e => h (Fin.ext e.symm)
  simp [State.readV, State.writeV, Vector.getElem_set_ne, this]

theorem State.readV_writeV (s : State) (r r' : Reg) (v : Byte) :
    (s.writeV r v).readV r' = if r' = r then v else s.readV r' := by
  split
  · rename_i h
    rw [h, State.readV_writeV_same]
  · rename_i h
    rw [State.readV_writeV_other s v h]

@[simp] theorem State.readV_setPc (s : State) (t : Addr) (r : Reg) : (s.setPc t).readV r = s.readV r := rfl
@[simp] theorem State.readV_faulted (s : State) (c : Cause) (info : BitVec 16) (r : Reg) : (s.faulted c info).readV r = s.readV r := rfl
@[simp] theorem State.readV_clearDisplay (s : State) (r : Reg) : s.clearDisplay.readV r = s.readV r := rfl
@[simp] theorem State.readV_drawSprite (s : State) (x0 y0 : Byte) (rows : List Byte) (r : Reg) :
    (s.drawSprite x0 y0 rows).1.readV r = s.readV r := rfl

/-! ## Ending a cycle -/

@[simp] theorem complete_eq (adv : Addr) (s : State) : complete adv s = .next (s.setPc (s.pc + adv)) := rfl

@[simp] theorem raise_eq (c : Cause) (info : BitVec 16) (s : State) : raise c info s = .next (s.faulted c info) := rfl

/-! ## The call stack -/

/-- All that a push does: none exactly on a full stack, else the entry at the old sp and sp one up. -/
theorem State.push_eq_some {s s' : State} {v : Addr} (h : s.push v = some s') :
    ∃ hsp : s.sp.val < 16,
      s' = { s with stack := s.stack.set s.sp.val v hsp, sp := ⟨s.sp.val + 1, by omega⟩ } := by
  unfold State.push at h
  split at h
  · rename_i hsp
    exact ⟨hsp, (Option.some.inj h).symm⟩
  · cases h

theorem State.push_eq_none {s : State} {v : Addr} : s.push v = none ↔ s.sp.val = 16 := by
  unfold State.push
  split
  · rename_i h
    simp [Nat.ne_of_lt h]
  · rename_i h
    have := s.sp.isLt
    simp only [true_iff]
    omega

/-- All that a pop does: none exactly on an empty stack, else the entry below the old sp and sp one down. -/
theorem State.pop_eq_some {s s' : State} {v : Addr} (h : s.pop = some (v, s')) :
    ∃ hsp : 0 < s.sp.val,
      v = s.stack[s.sp.val - 1]'(by omega) ∧ s' = { s with sp := ⟨s.sp.val - 1, by omega⟩ } := by
  unfold State.pop at h
  split at h
  · rename_i hsp
    have := Option.some.inj h
    exact ⟨hsp, (Prod.mk.inj this).1.symm, (Prod.mk.inj this).2.symm⟩
  · cases h

theorem State.pop_eq_none {s : State} : s.pop = none ↔ s.sp.val = 0 := by
  unfold State.pop
  split
  · rename_i h
    simp [Nat.ne_of_gt h]
  · rename_i h
    simp only [true_iff]
    omega

end Sys2Proof.Machine
end

