-- ==== Sys2Proof/Laws/Cycle.lean ====
section
/-! SUPPORT. What a cycle can do, said once: fetch, and the four ways a step goes. -/

namespace Sys2Proof.Machine

theorem composeWord_toNat (hi lo : Byte) : (composeWord hi lo).toNat = hi.toNat * 256 + lo.toNat := by
  have h1 := hi.isLt
  have h2 := lo.isLt
  simp only [composeWord, BitVec.toNat_ofNat]
  omega

theorem State.pcInBounds_iff (s : State) : s.pcInBounds = true ↔ s.pc.toNat ≤ 4094 := by
  simp [State.pcInBounds]

/-- With pc in bounds the fetch gives the two bytes at pc and pc+1. -/
theorem State.fetch_inside {s : State} (h : s.pc.toNat ≤ 4094) :
    s.fetch = some (composeWord (s.mem.read s.pc.toNat) (s.mem.read (s.pc.toNat + 1))) := by
  simp [State.fetch, memRead_inside (m := s.mem) (show s.pc.toNat < 4096 by omega),
    memRead_inside (m := s.mem) (show s.pc.toNat + 1 < 4096 by omega)]

theorem State.FetchesWord.fetch_eq {s : State} {w : Insn} (h : s.FetchesWord w) : s.fetch = some w := by
  rw [State.fetch_inside h.2.1]
  congr 1
  apply BitVec.eq_of_toNat_eq
  rw [composeWord_toNat, h.2.2]

/-- A cycle that fetches `w` does what `w` says. -/
theorem step_of_fetchesWord {s : State} {w : Insn} (h : s.FetchesWord w) : step s = execWord w s := by
  have hf := h.fetch_eq
  have hb := (State.pcInBounds_iff s).2 h.2.1
  simp [step, cycle, h.1, hb, hf]

theorem execWord_ok {w : Insn} {i : Instr} (s : State) (h : decodeWord w = .ok i) : execWord w s = exec i s := by
  simp [execWord, h]

theorem execWord_error {w : Insn} {r : Reject} (s : State) (h : decodeWord w = .error r) :
    execWord w s = .next (s.faulted .unimplementedOpcode w) := by
  simp [execWord, h]

/-- The four ways a step goes: the core is halted; pc is out of range; the word is illegal; the word is an instruction. -/
theorem step_cases (s : State) :
    (s.status = .fault ∧ step s = .next s) ∨
    (s.Running ∧ 4094 < s.pc.toNat ∧ step s = .next (s.faulted .addressRange (firstOutside s.pc.toNat))) ∨
    (∃ w, s.FetchesWord w ∧ (∃ r, decodeWord w = .error r) ∧ step s = .next (s.faulted .unimplementedOpcode w)) ∨
    (∃ w i, s.FetchesWord w ∧ decodeWord w = .ok i ∧ step s = exec i s) := by
  rcases hs : s.status with _ | _
  · by_cases hpc : s.pc.toNat ≤ 4094
    · have hw : s.FetchesWord (composeWord (s.mem.read s.pc.toNat) (s.mem.read (s.pc.toNat + 1))) :=
        ⟨hs, hpc, composeWord_toNat _ _⟩
      have hstep := step_of_fetchesWord hw
      rcases hd : decodeWord (composeWord (s.mem.read s.pc.toNat) (s.mem.read (s.pc.toNat + 1))) with r | i
      · exact .inr (.inr (.inl ⟨_, hw, ⟨r, hd⟩, by rw [hstep, execWord_error s hd]⟩))
      · exact .inr (.inr (.inr ⟨_, i, hw, hd, by rw [hstep, execWord_ok s hd]⟩))
    · have hb : s.pcInBounds = false := by simp [State.pcInBounds]; omega
      exact .inr (.inl ⟨hs, by omega, by simp [step, cycle, hs, hb]⟩)
  · exact .inl ⟨rfl, by simp [step, cycle, hs]⟩

/-! ## Runs of cycles -/

theorem run_zero (s : State) : Sys2Proof.core.run 0 s = .next s := rfl

/-- A run whose first cycle answers `t` goes on from `t`. -/
theorem run_succ {s t : State} (n : Nat) (h : step s = .next t) :
    Sys2Proof.core.run (n + 1) s = Sys2Proof.core.run n t := by
  have h' : Sys2Proof.core.step s = .next t := h
  simp only [Host.Core.run, h']

end Sys2Proof.Machine
end

