-- ==== Sys2Proof/Laws/Decode.lean ====
section
/-! SUPPORT. The fields of a word and the words of the formats as numbers (rule R71), and the two masks of rule R75. -/

namespace Sys2Proof

/-! ## Fields -/

theorem opField_toNat (w : Insn) : (opField w).toNat = w.toNat / 4096 := by
  have := w.isLt
  simp only [opField, BitVec.extractLsb'_toNat, Nat.shiftRight_eq_div_pow]
  omega

theorem nField_toNat (w : Insn) : (nField w).toNat = w.toNat % 16 := by
  simp only [nField, BitVec.extractLsb'_toNat, Nat.shiftRight_eq_div_pow]
  omega

theorem xField_val (w : Insn) : (xField w).val = w.toNat / 256 % 16 := by
  show (w.extractLsb' 8 4).toNat = _
  simp only [BitVec.extractLsb'_toNat, Nat.shiftRight_eq_div_pow, Nat.reducePow]

theorem yField_val (w : Insn) : (yField w).val = w.toNat / 16 % 16 := by
  show (w.extractLsb' 4 4).toNat = _
  simp only [BitVec.extractLsb'_toNat, Nat.shiftRight_eq_div_pow, Nat.reducePow]

theorem heightField_val (w : Insn) : (heightField w).val = w.toNat % 16 := nField_toNat w

theorem nnnField_toNat (w : Insn) : (nnnField w).toNat = w.toNat % 4096 := by
  simp only [nnnField, BitVec.extractLsb'_toNat, Nat.shiftRight_eq_div_pow]
  omega

theorem kkField_toNat (w : Insn) : (kkField w).toNat = w.toNat % 256 := by
  simp only [kkField, BitVec.extractLsb'_toNat, Nat.shiftRight_eq_div_pow]
  omega

theorem highByte_toNat (w : Insn) : (highByte w).toNat = w.toNat / 256 := by
  have := w.isLt
  simp only [highByte, BitVec.extractLsb'_toNat, Nat.shiftRight_eq_div_pow]
  omega

theorem lowByte_toNat (w : Insn) : (lowByte w).toNat = w.toNat % 256 := by
  simp only [lowByte, BitVec.extractLsb'_toNat, Nat.shiftRight_eq_div_pow]
  omega

/-! ## Words of the formats -/

theorem wordNNN_toNat {op : Nat} (hop : op < 16) (nnn : Operand) : (wordNNN op nnn).toNat = op * 4096 + nnn.toNat := by
  have := nnn.isLt
  simp only [wordNNN, BitVec.toNat_ofNat]
  omega

theorem wordXKK_toNat {op : Nat} (hop : op < 16) (x : Reg) (kk : Byte) :
    (wordXKK op x kk).toNat = op * 4096 + x.val * 256 + kk.toNat := by
  have := kk.isLt
  have := x.isLt
  simp only [wordXKK, BitVec.toNat_ofNat]
  omega

theorem wordXYN_toNat {op n : Nat} (hop : op < 16) (x y : Reg) (hn : n < 16) :
    (wordXYN op x y n).toNat = op * 4096 + x.val * 256 + y.val * 16 + n := by
  have := x.isLt
  have := y.isLt
  simp only [wordXYN, BitVec.toNat_ofNat]
  omega

/-- The byte at the lower address is the high byte, and composing gives the word back (R52, R80). -/
theorem composeWord_bytes (w : Insn) : composeWord (highByte w) (lowByte w) = w := by
  apply BitVec.eq_of_toNat_eq
  have := w.isLt
  simp only [composeWord, BitVec.toNat_ofNat, highByte_toNat, lowByte_toNat]
  omega

/-! ## The masks of the opcode map -/

theorem and_opMask_toNat (w : Insn) : (w &&& 0xF000).toNat = w.toNat / 4096 * 4096 := by
  have h : w &&& (0xF000 : Insn) = (w >>> 12) <<< 12 := by
    apply BitVec.eq_of_getElem_eq
    intro k hk
    interval_cases k <;> simp
  have := w.isLt
  rw [h, BitVec.toNat_shiftLeft, BitVec.toNat_ushiftRight, Nat.shiftRight_eq_div_pow, Nat.shiftLeft_eq]
  omega

theorem and_subMask_toNat (w : Insn) : (w &&& 0xF00F).toNat = w.toNat / 4096 * 4096 + w.toNat % 16 := by
  have h : w &&& (0xF00F : Insn) = (w &&& (0xF000 : Insn)) + (w &&& (0x000F : Insn)) := by
    rw [BitVec.add_eq_or_of_and_eq_zero]
    · apply BitVec.eq_of_getElem_eq
      intro k hk
      interval_cases k <;> simp
    · apply BitVec.eq_of_getElem_eq
      intro k hk
      interval_cases k <;> simp
  have h2 : (w &&& (0x000F : Insn)).toNat = w.toNat % 16 := by
    rw [BitVec.toNat_and]
    exact Nat.and_two_pow_sub_one_eq_mod w.toNat 4
  have := w.isLt
  rw [h, BitVec.toNat_add, and_opMask_toNat, h2]
  omega

/-- When a row of the opcode map covers a word, as numbers (R75). -/
theorem OpcodeRow.covers_iff (row : OpcodeRow) (w : Insn) : row.covers w = true ↔ (w &&& row.mask).toNat = row.pattern.toNat := by
  simp only [OpcodeRow.covers, beq_iff_eq]
  exact ⟨fun h => by rw [h], fun h => BitVec.eq_of_toNat_eq h⟩

/-! ## The decoder -/

theorem opField_eq_iff (w : Insn) (k : Nat) (hk : k < 16) : opField w = BitVec.ofNat 4 k ↔ w.toNat / 4096 = k := by
  rw [← opField_toNat]
  constructor
  · intro h; rw [h]; simp; omega
  · intro h; apply BitVec.eq_of_toNat_eq; simp; omega

theorem nField_eq_iff (w : Insn) (k : Nat) (hk : k < 16) : nField w = BitVec.ofNat 4 k ↔ w.toNat % 16 = k := by
  rw [← nField_toNat]
  constructor
  · intro h; rw [h]; simp; omega
  · intro h; apply BitVec.eq_of_toNat_eq; simp; omega

theorem word_eq_iff (w : Insn) (k : Nat) (hk : k < 65536) : w = BitVec.ofNat 16 k ↔ w.toNat = k := by
  constructor
  · intro h; rw [h]; simp; omega
  · intro h; apply BitVec.eq_of_toNat_eq; simp; omega

/-- The decision tree of R74 with the fields read as numbers. -/
theorem decodeWord_by_numbers (w : Insn) : decodeWord w =
    if w.toNat / 4096 = 0 then
      (if w.toNat = 0xE0 then .ok .cls
       else if w.toNat = 0xEE then .ok .ret
       else .error (.unimplementedOpcode w))
    else if w.toNat / 4096 = 1 then .ok (.jp (nnnField w))
    else if w.toNat / 4096 = 2 then .ok (.call (nnnField w))
    else if w.toNat / 4096 = 6 then .ok (.ldImm (xField w) (kkField w))
    else if w.toNat / 4096 = 7 then .ok (.addImm (xField w) (kkField w))
    else if w.toNat / 4096 = 8 then
      (if w.toNat % 16 = 0 then .ok (.ldReg (xField w) (yField w))
       else if w.toNat % 16 = 1 then .ok (.orReg (xField w) (yField w))
       else if w.toNat % 16 = 2 then .ok (.andReg (xField w) (yField w))
       else if w.toNat % 16 = 3 then .ok (.xorReg (xField w) (yField w))
       else if w.toNat % 16 = 4 then .ok (.addReg (xField w) (yField w))
       else if w.toNat % 16 = 5 then .ok (.subReg (xField w) (yField w))
       else if w.toNat % 16 = 6 then .ok (.shrReg (xField w) (yField w))
       else if w.toNat % 16 = 7 then .ok (.subnReg (xField w) (yField w))
       else if w.toNat % 16 = 14 then .ok (.shlReg (xField w) (yField w))
       else .error (.unimplementedOpcode w))
    else if w.toNat / 4096 = 11 then .ok (.jpV0 (nnnField w))
    else if w.toNat / 4096 = 13 then .ok (.drw (xField w) (yField w) (heightField w))
    else .error (.unimplementedOpcode w) := by
  simp only [decodeWord, decodeMisc, decodeAlu]
  have o := fun k hk => opField_eq_iff w k hk
  have n := fun k hk => nField_eq_iff w k hk
  have v := fun k hk => word_eq_iff w k hk
  simp only [show (0x0 : Nibble) = BitVec.ofNat 4 0 from rfl, show (0x1 : Nibble) = BitVec.ofNat 4 1 from rfl,
    show (0x2 : Nibble) = BitVec.ofNat 4 2 from rfl, show (0x3 : Nibble) = BitVec.ofNat 4 3 from rfl,
    show (0x4 : Nibble) = BitVec.ofNat 4 4 from rfl, show (0x5 : Nibble) = BitVec.ofNat 4 5 from rfl,
    show (0x6 : Nibble) = BitVec.ofNat 4 6 from rfl, show (0x7 : Nibble) = BitVec.ofNat 4 7 from rfl,
    show (0x8 : Nibble) = BitVec.ofNat 4 8 from rfl, show (0xB : Nibble) = BitVec.ofNat 4 11 from rfl,
    show (0xD : Nibble) = BitVec.ofNat 4 13 from rfl, show (0xE : Nibble) = BitVec.ofNat 4 14 from rfl,
    show (0x00E0 : Insn) = BitVec.ofNat 16 0xE0 from rfl, show (0x00EE : Insn) = BitVec.ofNat 16 0xEE from rfl,
    o 0 (by decide), o 1 (by decide), o 2 (by decide), o 6 (by decide), o 7 (by decide), o 8 (by decide), o 11 (by decide),
    o 13 (by decide), n 0 (by decide), n 1 (by decide), n 2 (by decide), n 3 (by decide), n 4 (by decide), n 5 (by decide),
    n 6 (by decide), n 7 (by decide), n 14 (by decide), v 0xE0 (by decide), v 0xEE (by decide)]

/-- All that the decoder can answer for a word, one constructor per instruction, and the rejection. -/
inductive DecodesTo (w : Insn) : Except Reject Instr → Prop
  | cls : w.toNat = 0xE0 → DecodesTo w (.ok .cls)
  | ret : w.toNat = 0xEE → DecodesTo w (.ok .ret)
  | jp : w.toNat / 4096 = 1 → DecodesTo w (.ok (.jp (nnnField w)))
  | call : w.toNat / 4096 = 2 → DecodesTo w (.ok (.call (nnnField w)))
  | ldImm : w.toNat / 4096 = 6 → DecodesTo w (.ok (.ldImm (xField w) (kkField w)))
  | addImm : w.toNat / 4096 = 7 → DecodesTo w (.ok (.addImm (xField w) (kkField w)))
  | ldReg : w.toNat / 4096 = 8 → w.toNat % 16 = 0 → DecodesTo w (.ok (.ldReg (xField w) (yField w)))
  | orReg : w.toNat / 4096 = 8 → w.toNat % 16 = 1 → DecodesTo w (.ok (.orReg (xField w) (yField w)))
  | andReg : w.toNat / 4096 = 8 → w.toNat % 16 = 2 → DecodesTo w (.ok (.andReg (xField w) (yField w)))
  | xorReg : w.toNat / 4096 = 8 → w.toNat % 16 = 3 → DecodesTo w (.ok (.xorReg (xField w) (yField w)))
  | addReg : w.toNat / 4096 = 8 → w.toNat % 16 = 4 → DecodesTo w (.ok (.addReg (xField w) (yField w)))
  | subReg : w.toNat / 4096 = 8 → w.toNat % 16 = 5 → DecodesTo w (.ok (.subReg (xField w) (yField w)))
  | shrReg : w.toNat / 4096 = 8 → w.toNat % 16 = 6 → DecodesTo w (.ok (.shrReg (xField w) (yField w)))
  | subnReg : w.toNat / 4096 = 8 → w.toNat % 16 = 7 → DecodesTo w (.ok (.subnReg (xField w) (yField w)))
  | shlReg : w.toNat / 4096 = 8 → w.toNat % 16 = 14 → DecodesTo w (.ok (.shlReg (xField w) (yField w)))
  | jpV0 : w.toNat / 4096 = 11 → DecodesTo w (.ok (.jpV0 (nnnField w)))
  | drw : w.toNat / 4096 = 13 → DecodesTo w (.ok (.drw (xField w) (yField w) (heightField w)))
  | illegal : (w.toNat ≠ 0xE0 ∧ w.toNat ≠ 0xEE ∧ (w.toNat / 4096 = 8 → w.toNat % 16 ∉ [0, 1, 2, 3, 4, 5, 6, 7, 14]) ∧
      w.toNat / 4096 ∉ [1, 2, 6, 7, 11, 13]) → DecodesTo w (.error (.unimplementedOpcode w))

/-- What the decoder answers, said once: `cases` on it gives the answer and the fields that led to it. -/
theorem decodeWord_spec (w : Insn) : DecodesTo w (decodeWord w) := by
  rw [decodeWord_by_numbers]
  have hw := w.isLt
  obtain ⟨k, hk⟩ : ∃ k, w.toNat/4096 = k := ⟨_, rfl⟩
  obtain ⟨n, hn⟩ : ∃ n, w.toNat%16 = n := ⟨_, rfl⟩
  have hk' : k < 16 := by omega
  have hn' : n < 16 := by omega
  rw [hk, hn]
  by_cases h8 : k = 8
  · subst h8
    simp only [Nat.reduceEqDiff, if_false, if_true, OfNat.ofNat_ne_zero, OfNat.ofNat_ne_one]
    interval_cases n <;> simp only [Nat.reduceEqDiff, if_false, if_true, OfNat.ofNat_ne_zero, OfNat.ofNat_ne_one, one_ne_zero]
    · exact .ldReg hk hn
    · exact .orReg hk hn
    · exact .andReg hk hn
    · exact .xorReg hk hn
    · exact .addReg hk hn
    · exact .subReg hk hn
    · exact .shrReg hk hn
    · exact .subnReg hk hn
    all_goals first
      | exact .shlReg hk hn
      | exact .illegal ⟨by omega, by omega, fun _ => by rw [hn]; decide, by rw [hk]; decide⟩
  interval_cases k
  · rw [if_pos rfl]
    by_cases h1 : w.toNat = 0xE0
    · rw [if_pos h1]; exact .cls h1
    · rw [if_neg h1]
      by_cases h2 : w.toNat = 0xEE
      · rw [if_pos h2]; exact .ret h2
      · rw [if_neg h2]; exact .illegal ⟨h1, h2, by omega, by rw [hk]; decide⟩
  all_goals simp only [Nat.reduceEqDiff, if_false, if_true, OfNat.ofNat_ne_zero, OfNat.ofNat_ne_one, one_ne_zero]
  all_goals first
    | exact absurd rfl h8
    | exact .jp hk
    | exact .call hk
    | exact .ldImm hk
    | exact .addImm hk
    | exact .jpV0 hk
    | exact .drw hk
    | exact .illegal ⟨by omega, by omega, by omega, by rw [hk]; decide⟩

end Sys2Proof
end

