-- ==== Sys2Proof/Laws/Display.lean ====
section
/-! SUPPORT. The framebuffer's cells: read after write, the clear framebuffer, and one pixel of the blit. -/

namespace Sys2Proof.Machine

@[simp] theorem Fb.cell_setCell_same (fb : Fb) (r : Fin 32) (c : Fin 64) (v : Bool) : (fb.setCell r c v).cell r c = v := by
  simp [Fb.cell, Fb.setCell]

theorem Fb.cell_setCell (fb : Fb) (r r' : Fin 32) (c c' : Fin 64) (v : Bool) :
    (fb.setCell r c v).cell r' c' = if r' = r ∧ c' = c then v else fb.cell r' c' := by
  unfold Fb.cell Fb.setCell
  by_cases hr : r' = r
  · subst hr
    by_cases hc : c' = c
    · subst hc
      simp
    · have : c.val ≠ c'.val := fun e => hc (Fin.ext e.symm)
      simp [Vector.getElem_set_ne, this, hc]
  · have : r.val ≠ r'.val := fun e => hr (Fin.ext e.symm)
    simp [Vector.getElem_set_ne, this, hr]

@[simp] theorem Fb.cell_off (r : Fin 32) (c : Fin 64) : Fb.off.cell r c = false := by
  simp [Fb.cell, Fb.off]

/-- Two framebuffers with equal cells are equal. -/
theorem Fb.ext_cells {fb fb' : Fb} (h : ∀ r c, fb.cell r c = fb'.cell r c) : fb = fb' := by
  apply Vector.ext
  intro r hr
  apply Vector.ext
  intro c hc
  exact h ⟨r, hr⟩ ⟨c, hc⟩

/-- One pixel of the blit changes its own cell only. -/
theorem drawPixel_cell (x0 y0 row col : Nat) (bit : Bool) (d : Fb × Bool) (r : Fin 32) (c : Fin 64) :
    (drawPixel x0 y0 row col bit d).1.cell r c =
      if r = wrapRow (y0 + row) ∧ c = wrapCol (x0 + col) then d.1.cell r c ^^ bit else d.1.cell r c := by
  simp only [drawPixel, Fb.cell_setCell]
  split
  · rename_i h
    rw [h.1, h.2]
  · rfl

/-- One pixel of the blit adds to the collision whether its cell was on under a 1 bit. -/
theorem drawPixel_collision (x0 y0 row col : Nat) (bit : Bool) (d : Fb × Bool) :
    (drawPixel x0 y0 row col bit d).2 = (d.2 || (d.1.cell (wrapRow (y0 + row)) (wrapCol (x0 + col)) && bit)) := rfl

/-! ## Where the sprite lands on the wrapped grid -/

/-- How far cell column `c` lies right of column `x0`, going round the grid. -/
def colOffset (x0 : Nat) (c : Fin 64) : Nat := (c.val + 64 - x0 % 64) % 64

/-- How far cell row `r` lies below row `y0`, going round the grid. -/
def rowOffset (y0 : Nat) (r : Fin 32) : Nat := (r.val + 32 - y0 % 32) % 32

theorem eq_wrapCol_iff (x0 : Nat) (c : Fin 64) {col : Nat} (h : col < 64) : c = wrapCol (x0 + col) ↔ colOffset x0 c = col := by
  have := c.isLt
  rw [Fin.ext_iff]
  simp only [wrapCol, colOffset]
  omega

theorem eq_wrapRow_iff (y0 : Nat) (r : Fin 32) {row : Nat} (h : row < 32) : r = wrapRow (y0 + row) ↔ rowOffset y0 r = row := by
  have := r.isLt
  rw [Fin.ext_iff]
  simp only [wrapRow, rowOffset]
  omega

/-! ## One sprite row -/

/-- A run of pixels of one sprite row, over columns that are all different: which cells it flips, and what it adds to the
collision. -/
theorem foldl_drawPixel (x0 y0 row : Nat) (b : Byte) : ∀ (cols : List Nat) (d : Fb × Bool), cols.Nodup → (∀ k ∈ cols, k < 64) →
    (∀ r c, (cols.foldl (fun d col => drawPixel x0 y0 row col (spriteBit b col) d) d).1.cell r c =
      (d.1.cell r c ^^ (decide (r = wrapRow (y0 + row)) && decide (colOffset x0 c ∈ cols) && spriteBit b (colOffset x0 c)))) ∧
    ((cols.foldl (fun d col => drawPixel x0 y0 row col (spriteBit b col) d) d).2 = true ↔
      d.2 = true ∨ ∃ c, colOffset x0 c ∈ cols ∧ d.1.cell (wrapRow (y0 + row)) c = true ∧ spriteBit b (colOffset x0 c) = true)
  | [], d, _, _ => by simp
  | k :: cols, d, hnd, hlt => by
    have hk : k < 64 := hlt k (by simp)
    have hnot : k ∉ cols := (List.nodup_cons.1 hnd).1
    obtain ⟨ih1, ih2⟩ := foldl_drawPixel x0 y0 row b cols (drawPixel x0 y0 row k (spriteBit b k) d) (List.nodup_cons.1 hnd).2
      (fun j hj => hlt j (by simp [hj]))
    refine ⟨fun r c => ?_, ?_⟩
    · rw [List.foldl_cons, ih1, drawPixel_cell]
      simp only [eq_wrapCol_iff x0 c hk]
      by_cases hr : r = wrapRow (y0 + row)
      · by_cases hc : colOffset x0 c = k
        · simp [hr, hc, hnot]
        · simp [hr, hc]
      · simp [hr]
    · rw [List.foldl_cons, ih2, drawPixel_collision]
      have hcell : (wrapCol (x0 + k)) = wrapCol (x0 + k) := rfl
      rw [eq_wrapCol_iff x0 _ hk] at hcell
      constructor
      · rintro (h | ⟨c, hc, hon, hbit⟩)
        · rw [Bool.or_eq_true, Bool.and_eq_true] at h
          rcases h with h | ⟨h1, h2⟩
          · exact .inl h
          · exact .inr ⟨wrapCol (x0 + k), by simp [hcell], h1, by rw [hcell]; exact h2⟩
        · have hne : ¬colOffset x0 c = k := fun e => hnot (e ▸ hc)
          rw [drawPixel_cell, if_neg (by rw [eq_wrapCol_iff x0 c hk]; exact fun e => hne e.2)] at hon
          exact .inr ⟨c, by simp [hc], hon, hbit⟩
      · rintro (h | ⟨c, hc, hon, hbit⟩)
        · exact .inl (by rw [h, Bool.true_or])
        · by_cases hck : colOffset x0 c = k
          · have hcc := (eq_wrapCol_iff x0 c hk).2 hck
            rw [hck] at hbit
            rw [hcc] at hon
            exact .inl (by rw [hon, hbit]; simp)
          · refine .inr ⟨c, by simpa [hck] using hc, ?_, hbit⟩
            rw [drawPixel_cell, if_neg (by rw [eq_wrapCol_iff x0 c hk]; exact fun e => hck e.2)]
            exact hon

/-- The bit of sprite row byte `b`, drawn at column `x0`, that falls on column `c`: none beyond the eight columns. -/
def rowPixel (x0 : Nat) (b : Byte) (c : Fin 64) : Bool := decide (colOffset x0 c < 8) && spriteBit b (colOffset x0 c)

theorem mem_eight_columns (k : Nat) : k ∈ [0, 1, 2, 3, 4, 5, 6, 7] ↔ k < 8 := by
  simp only [List.mem_cons, List.not_mem_nil, or_false]
  omega

/-- One sprite row flips the cells its 1 bits fall on. -/
theorem drawRow_cell (x0 y0 row : Nat) (b : Byte) (d : Fb × Bool) (r : Fin 32) (c : Fin 64) :
    (drawRow x0 y0 row b d).1.cell r c = (d.1.cell r c ^^ (decide (r = wrapRow (y0 + row)) && rowPixel x0 b c)) := by
  have h := (foldl_drawPixel x0 y0 row b [0, 1, 2, 3, 4, 5, 6, 7] d (by decide) (by decide)).1 r c
  rw [drawRow, h]
  simp only [rowPixel, mem_eight_columns, Bool.and_assoc]

/-- One sprite row collides when a cell that was on meets a 1 bit. -/
theorem drawRow_collision (x0 y0 row : Nat) (b : Byte) (d : Fb × Bool) :
    (drawRow x0 y0 row b d).2 = true ↔
      d.2 = true ∨ ∃ c, d.1.cell (wrapRow (y0 + row)) c = true ∧ rowPixel x0 b c = true := by
  have h := (foldl_drawPixel x0 y0 row b [0, 1, 2, 3, 4, 5, 6, 7] d (by decide) (by decide)).2
  rw [drawRow, h]
  simp only [rowPixel, mem_eight_columns, Bool.and_eq_true, decide_eq_true_eq]
  constructor <;> rintro (h | ⟨c, h1, h2, h3⟩)
  exacts [.inl h, .inr ⟨c, h2, h1, h3⟩, .inl h, .inr ⟨c, h2, h1, h3⟩]

/-! ## The whole sprite -/

/-- The bit of the rows `bs`, the first of them drawn at row `y0`, that falls on cell `(r, c)`. -/
def rowsPixel (x0 y0 : Nat) (bs : List Byte) (r : Fin 32) (c : Fin 64) : Bool :=
  match bs[rowOffset y0 r]? with
  | some b => rowPixel x0 b c
  | none => false

theorem rowsPixel_nil (x0 y0 : Nat) (r : Fin 32) (c : Fin 64) : rowsPixel x0 y0 [] r c = false := by
  simp [rowsPixel]

/-- The rows from the second on are the rows drawn one lower. -/
theorem rowsPixel_cons (x0 y0 : Nat) (b : Byte) (bs : List Byte) (h : bs.length < 32) (r : Fin 32) (c : Fin 64) :
    rowsPixel x0 y0 (b :: bs) r c =
      ((decide (r = wrapRow y0) && rowPixel x0 b c) ^^ rowsPixel x0 (y0 + 1) bs r c) ∧
    (r = wrapRow y0 → rowsPixel x0 (y0 + 1) bs r c = false) := by
  have hr : r = wrapRow y0 ↔ rowOffset y0 r = 0 := eq_wrapRow_iff y0 r (row := 0) (by decide)
  have hlt := r.isLt
  by_cases h0 : rowOffset y0 r = 0
  · have h1 : rowOffset (y0 + 1) r = 31 := by
      simp only [rowOffset] at h0 ⊢
      omega
    have hnone : bs[31]? = none := List.getElem?_eq_none (by omega)
    simp [rowsPixel, h0, h1, hnone, hr]
  · have h1 : rowOffset y0 r = rowOffset (y0 + 1) r + 1 := by
      simp only [rowOffset] at h0 ⊢
      omega
    simp [rowsPixel, hr, h1]

/-- What the rows of a sprite do to the framebuffer and the collision (R157): each cell is XORed with the sprite's bit for
it, and the collision tells whether a cell that was on met a 1 bit. -/
theorem drawRows_spec (x0 y0 : Nat) : ∀ (bs : List Byte) (row : Nat) (d : Fb × Bool), bs.length ≤ 32 →
    (∀ r c, (drawRows x0 y0 row bs d).1.cell r c = (d.1.cell r c ^^ rowsPixel x0 (y0 + row) bs r c)) ∧
    ((drawRows x0 y0 row bs d).2 = true ↔
      d.2 = true ∨ ∃ r c, d.1.cell r c = true ∧ rowsPixel x0 (y0 + row) bs r c = true)
  | [], row, d, _ => by simp [drawRows, rowsPixel_nil]
  | b :: bs, row, d, h => by
    simp only [List.length_cons] at h
    obtain ⟨ih1, ih2⟩ := drawRows_spec x0 y0 bs (row + 1) (drawRow x0 y0 row b d) (by omega)
    have hcons := fun r c => rowsPixel_cons x0 (y0 + row) b bs (by omega) r c
    simp only [← Nat.add_assoc] at ih1 ih2
    refine ⟨fun r c => ?_, ?_⟩
    · rw [drawRows, ih1, drawRow_cell, (hcons r c).1, Bool.xor_assoc]
    · rw [drawRows, ih2, drawRow_collision]
      constructor
      · rintro ((h | ⟨c, h1, h2⟩) | ⟨r, c, h1, h2⟩)
        · exact .inl h
        · exact .inr ⟨_, c, h1, by rw [(hcons _ c).1, (hcons _ c).2 rfl, h2]; simp⟩
        · have hne : ¬r = wrapRow (y0 + row) := fun e => by rw [(hcons r c).2 e] at h2; cases h2
          rw [drawRow_cell] at h1
          exact .inr ⟨r, c, by simpa [hne] using h1, by rw [(hcons r c).1, h2]; simp [hne]⟩
      · rintro (h | ⟨r, c, h1, h2⟩)
        · exact .inl (.inl h)
        · rw [(hcons r c).1] at h2
          by_cases he : r = wrapRow (y0 + row)
          · rw [(hcons r c).2 he] at h2
            subst he
            exact .inl (.inr ⟨c, h1, by simpa using h2⟩)
          · exact .inr ⟨r, c, by rw [drawRow_cell]; simpa [he] using h1, by simpa [he] using h2⟩

end Sys2Proof.Machine
end

