-- ==== Sys2Proof/Laws/Exec.lean ====
section
/-! SUPPORT. The meanings as equations, and what any instruction can do, said once. -/

namespace Sys2Proof.Machine

/-! ## Meanings with several ways to go -/

theorem execRet_empty {s : State} (h : s.sp.val = 0) : execRet s = complete advInsn s := by
  simp only [execRet, State.pop_eq_none.2 h]

theorem execRet_pop {s : State} (h : 0 < s.sp.val) :
    execRet s = complete advInsn (({ s with sp := ⟨s.sp.val - 1, by omega⟩ } : State).setPc (s.stack[s.sp.val - 1]'(by omega))) := by
  simp only [execRet, State.pop, h, dif_pos]

theorem execCall_full {s : State} (nnn : Operand) (h : s.sp.val = 16) : execCall nnn s = raise .stackOverflow s.pc s := by
  simp only [execCall, State.push_eq_none.2 h]

theorem execCall_room {s : State} (nnn : Operand) (h : s.sp.val < 16) :
    execCall nnn s = complete advNone (({ s with stack := s.stack.set s.sp.val s.pc h, sp := ⟨s.sp.val + 1, by omega⟩ } : State).setPc
      (targetOf nnn)) := by
  simp only [execCall, State.push, h, dif_pos]

theorem spriteOutside_iff (src : Nat) (n : Height) : spriteOutside src n = true ↔ 0 < n.val ∧ 4096 < src + n.val := by
  simp only [spriteOutside, Bool.and_eq_true, decide_eq_true_eq]
  omega

theorem execDrw_outside {s : State} (x y : Reg) {n : Height} (h0 : 0 < n.val) (h : 4096 < s.I.toNat + n.val) :
    execDrw x y n s = raise .addressRange (firstOutside s.I.toNat) s := by
  simp only [execDrw, (spriteOutside_iff s.I.toNat n).2 ⟨h0, h⟩, if_true]

/-- A draw whose sprite lies in memory blits the bytes at I, I+1, … (R155). -/
theorem execDrw_inside {s : State} (x y : Reg) {n : Height} (h : n.val = 0 ∨ s.I.toNat + n.val ≤ 4096) :
    execDrw x y n s =
      complete advInsn
        ((s.drawSprite (s.readV x) (s.readV y) ((List.range' s.I.toNat n.val).map s.mem.read)).1.writeV VF
          (collisionFlag (s.drawSprite (s.readV x) (s.readV y) ((List.range' s.I.toNat n.val).map s.mem.read)).2)) := by
  have h1 : ¬spriteOutside s.I.toNat n = true := by
    rw [spriteOutside_iff]
    omega
  have h2 : memReadBytes s.mem s.I.toNat n.val = some ((List.range' s.I.toNat n.val).map s.mem.read) := by
    rcases h with h | h
    · rw [h]
      rfl
    · exact memReadBytes_inside _ _ _ h
  simp only [execDrw, if_neg h1, h2]

/-! ## Any instruction -/

/-- All that an instruction which answers `t` can have done: it completed, touching only V, pc, the stack and the display,
or it raised one of the two faults an instruction has. -/
theorem exec_cases {i : Instr} {s t : State} (h : exec i s = .next t) :
    t = { s with V := t.V, pc := t.pc, sp := t.sp, stack := t.stack, fb := t.fb, dirty := t.dirty } ∨
    (∃ nnn, i = .call nnn ∧ s.sp.val = 16 ∧ t = s.faulted .stackOverflow s.pc) ∨
    (∃ x y n, i = .drw x y n ∧ 0 < n.val ∧ 4096 < s.I.toNat + n.val ∧
      t = s.faulted .addressRange (firstOutside s.I.toNat)) := by
  cases i with
  | drw x y n =>
    rw [exec] at h
    by_cases hd : n.val = 0 ∨ s.I.toNat + n.val ≤ 4096
    · rw [execDrw_inside x y hd] at h
      cases h
      exact .inl rfl
    · rw [execDrw_outside x y (by omega) (by omega)] at h
      cases h
      exact .inr (.inr ⟨x, y, n, rfl, by omega, by omega, rfl⟩)
  | call nnn =>
    rw [exec] at h
    by_cases hsp : s.sp.val < 16
    · rw [execCall_room nnn hsp] at h
      cases h
      exact .inl rfl
    · have hfull : s.sp.val = 16 := by omega
      rw [execCall_full nnn hfull] at h
      cases h
      exact .inr (.inl ⟨nnn, rfl, hfull, rfl⟩)
  | ret =>
    rw [exec] at h
    by_cases hsp : 0 < s.sp.val
    · rw [execRet_pop hsp] at h
      cases h
      exact .inl rfl
    · rw [execRet_empty (by omega)] at h
      cases h
      exact .inl rfl
  | _ =>
    cases h
    exact .inl rfl

end Sys2Proof.Machine
end

