-- ==== Sys2Proof/Laws/PerInstr.lean ====
section
/-! SUPPORT. Families of facts with one lemma per constructor of `Instr`. `EncodeMatchesRow`: the word the encoder gives an
instruction carries the fixed bits that the opcode map of rule R75 gives its row. -/

namespace Sys2Proof.Laws.EncodeMatchesRow

/-- The instruction's word matches the row of the opcode map that stands for it. -/
def Statement (i : Instr) : Prop := ∃ row, opcodeTable[i.rowNumber]? = some row ∧ row.covers (encodeWord i) = true

theorem cls : Statement .cls := ⟨_, rfl, by decide⟩

theorem ret : Statement .ret := ⟨_, rfl, by decide⟩

theorem jp (nnn : Operand) : Statement (.jp nnn) := by
  refine ⟨_, rfl, (OpcodeRow.covers_iff _ _).2 ?_⟩
  have h := wordNNN_toNat (op := 0x1) (by decide) nnn
  have := nnn.isLt
  rw [encodeWord, and_opMask_toNat, h]
  simp only [BitVec.ofNat_eq_ofNat, BitVec.toNat_ofNat]
  omega

theorem call (nnn : Operand) : Statement (.call nnn) := by
  refine ⟨_, rfl, (OpcodeRow.covers_iff _ _).2 ?_⟩
  have h := wordNNN_toNat (op := 0x2) (by decide) nnn
  have := nnn.isLt
  rw [encodeWord, and_opMask_toNat, h]
  simp only [BitVec.ofNat_eq_ofNat, BitVec.toNat_ofNat]
  omega

theorem ldImm (x : Reg) (kk : Byte) : Statement (.ldImm x kk) := by
  refine ⟨_, rfl, (OpcodeRow.covers_iff _ _).2 ?_⟩
  have h := wordXKK_toNat (op := 0x6) (by decide) x kk
  have := x.isLt
  have := kk.isLt
  rw [encodeWord, and_opMask_toNat, h]
  simp only [BitVec.ofNat_eq_ofNat, BitVec.toNat_ofNat]
  omega

theorem addImm (x : Reg) (kk : Byte) : Statement (.addImm x kk) := by
  refine ⟨_, rfl, (OpcodeRow.covers_iff _ _).2 ?_⟩
  have h := wordXKK_toNat (op := 0x7) (by decide) x kk
  have := x.isLt
  have := kk.isLt
  rw [encodeWord, and_opMask_toNat, h]
  simp only [BitVec.ofNat_eq_ofNat, BitVec.toNat_ofNat]
  omega

theorem ldReg (x y : Reg) : Statement (.ldReg x y) := by
  refine ⟨_, rfl, (OpcodeRow.covers_iff _ _).2 ?_⟩
  have h := wordXYN_toNat (op := 0x8) (n := 0) (by decide) x y (by decide)
  have := x.isLt
  have := y.isLt
  rw [encodeWord, and_subMask_toNat, h]
  simp only [BitVec.ofNat_eq_ofNat, BitVec.toNat_ofNat]
  omega

theorem orReg (x y : Reg) : Statement (.orReg x y) := by
  refine ⟨_, rfl, (OpcodeRow.covers_iff _ _).2 ?_⟩
  have h := wordXYN_toNat (op := 0x8) (n := 1) (by decide) x y (by decide)
  have := x.isLt
  have := y.isLt
  rw [encodeWord, and_subMask_toNat, h]
  simp only [BitVec.ofNat_eq_ofNat, BitVec.toNat_ofNat]
  omega

theorem andReg (x y : Reg) : Statement (.andReg x y) := by
  refine ⟨_, rfl, (OpcodeRow.covers_iff _ _).2 ?_⟩
  have h := wordXYN_toNat (op := 0x8) (n := 2) (by decide) x y (by decide)
  have := x.isLt
  have := y.isLt
  rw [encodeWord, and_subMask_toNat, h]
  simp only [BitVec.ofNat_eq_ofNat, BitVec.toNat_ofNat]
  omega

theorem xorReg (x y : Reg) : Statement (.xorReg x y) := by
  refine ⟨_, rfl, (OpcodeRow.covers_iff _ _).2 ?_⟩
  have h := wordXYN_toNat (op := 0x8) (n := 3) (by decide) x y (by decide)
  have := x.isLt
  have := y.isLt
  rw [encodeWord, and_subMask_toNat, h]
  simp only [BitVec.ofNat_eq_ofNat, BitVec.toNat_ofNat]
  omega

theorem addReg (x y : Reg) : Statement (.addReg x y) := by
  refine ⟨_, rfl, (OpcodeRow.covers_iff _ _).2 ?_⟩
  have h := wordXYN_toNat (op := 0x8) (n := 4) (by decide) x y (by decide)
  have := x.isLt
  have := y.isLt
  rw [encodeWord, and_subMask_toNat, h]
  simp only [BitVec.ofNat_eq_ofNat, BitVec.toNat_ofNat]
  omega

theorem subReg (x y : Reg) : Statement (.subReg x y) := by
  refine ⟨_, rfl, (OpcodeRow.covers_iff _ _).2 ?_⟩
  have h := wordXYN_toNat (op := 0x8) (n := 5) (by decide) x y (by decide)
  have := x.isLt
  have := y.isLt
  rw [encodeWord, and_subMask_toNat, h]
  simp only [BitVec.ofNat_eq_ofNat, BitVec.toNat_ofNat]
  omega

theorem shrReg (x y : Reg) : Statement (.shrReg x y) := by
  refine ⟨_, rfl, (OpcodeRow.covers_iff _ _).2 ?_⟩
  have h := wordXYN_toNat (op := 0x8) (n := 6) (by decide) x y (by decide)
  have := x.isLt
  have := y.isLt
  rw [encodeWord, and_subMask_toNat, h]
  simp only [BitVec.ofNat_eq_ofNat, BitVec.toNat_ofNat]
  omega

theorem subnReg (x y : Reg) : Statement (.subnReg x y) := by
  refine ⟨_, rfl, (OpcodeRow.covers_iff _ _).2 ?_⟩
  have h := wordXYN_toNat (op := 0x8) (n := 7) (by decide) x y (by decide)
  have := x.isLt
  have := y.isLt
  rw [encodeWord, and_subMask_toNat, h]
  simp only [BitVec.ofNat_eq_ofNat, BitVec.toNat_ofNat]
  omega

theorem shlReg (x y : Reg) : Statement (.shlReg x y) := by
  refine ⟨_, rfl, (OpcodeRow.covers_iff _ _).2 ?_⟩
  have h := wordXYN_toNat (op := 0x8) (n := 14) (by decide) x y (by decide)
  have := x.isLt
  have := y.isLt
  rw [encodeWord, and_subMask_toNat, h]
  simp only [BitVec.ofNat_eq_ofNat, BitVec.toNat_ofNat]
  omega

theorem jpV0 (nnn : Operand) : Statement (.jpV0 nnn) := by
  refine ⟨_, rfl, (OpcodeRow.covers_iff _ _).2 ?_⟩
  have h := wordNNN_toNat (op := 0xB) (by decide) nnn
  have := nnn.isLt
  rw [encodeWord, and_opMask_toNat, h]
  simp only [BitVec.ofNat_eq_ofNat, BitVec.toNat_ofNat]
  omega

theorem drw (x y : Reg) (n : Height) : Statement (.drw x y n) := by
  refine ⟨_, rfl, (OpcodeRow.covers_iff _ _).2 ?_⟩
  have h := wordXYN_toNat (op := 0xD) (by decide) x y n.isLt
  have := x.isLt
  have := y.isLt
  have := n.isLt
  rw [encodeWord, and_opMask_toNat, h]
  simp only [BitVec.ofNat_eq_ofNat, BitVec.toNat_ofNat]
  omega

end Sys2Proof.Laws.EncodeMatchesRow
end

