-- ==== Sys2Proof/Tests/Slice0.lean ====
section
/-! SUPPORT. Tests and witnesses. Expected values are the spec's own worked examples and vectors (95_test_vectors.md names
V-…, the examples of files 30 to 46), or read off its tables by hand. -/

namespace Sys2Proof.Tests

open Sys2Proof Sys2Proof.Machine

/-! ## Checks on what comes from outside (WellFormed.lean) -/

/-- R76: words that match no row, one for each kind the rule lists. -/
theorem test_illegal_words_refused :
    ([0x0000, 0x00E1, 0x01E0, 0x3000, 0x4123, 0x5120, 0x8008, 0x800D, 0x800F, 0x9120, 0xA123, 0xC0FF, 0xE09E, 0xF065] :
      List Insn).all (fun w => !Insn.legal w) = true := by decide

/-- R75: a word of every row matches. -/
theorem test_legal_words_accepted :
    ([0x00E0, 0x00EE, 0x1ABC, 0x2206, 0x632A, 0x700A, 0x8120, 0x8121, 0x8122, 0x8123, 0x8014, 0x8015, 0x8106, 0x8017, 0x812E,
      0xB204, 0xD012] : List Insn).all Insn.legal = true := by decide

/-- R61: 3584 bytes fit. -/
theorem test_image_of_3584_fits : imageFits (List.replicate 3584 0) = true := by
  rw [imageFits, List.length_replicate]
  decide

/-- R61: 3585 bytes do not. -/
theorem test_image_of_3585_refused : imageFits (List.replicate 3585 0) = false := by
  rw [imageFits, List.length_replicate]
  decide

/-! ## Decoding: a word of every row, written out from R71 and R75 -/

theorem test_decode_misc : decodeWord 0x00E0 = .ok .cls ∧ decodeWord 0x00EE = .ok .ret := by decide

theorem test_decode_jump_call :
    decodeWord 0x1ABC = .ok (.jp 0xABC) ∧ decodeWord 0x2206 = .ok (.call 0x206) ∧ decodeWord 0xBF0E = .ok (.jpV0 0xF0E) := by
  decide

theorem test_decode_immediate : decodeWord 0x632A = .ok (.ldImm 3 0x2A) ∧ decodeWord 0x7E05 = .ok (.addImm 14 0x05) := by decide

theorem test_decode_alu_logic :
    decodeWord 0x8120 = .ok (.ldReg 1 2) ∧ decodeWord 0x8341 = .ok (.orReg 3 4) ∧ decodeWord 0x8562 = .ok (.andReg 5 6) ∧
    decodeWord 0x8783 = .ok (.xorReg 7 8) := by decide

theorem test_decode_alu_arithmetic :
    decodeWord 0x89A4 = .ok (.addReg 9 10) ∧ decodeWord 0x8BC5 = .ok (.subReg 11 12) ∧ decodeWord 0x8DE6 = .ok (.shrReg 13 14) ∧
    decodeWord 0x8F07 = .ok (.subnReg 15 0) ∧ decodeWord 0x812E = .ok (.shlReg 1 2) := by decide

theorem test_decode_draw : decodeWord 0xD12F = .ok (.drw 1 2 15) := by decide

/-- R76, the source's example. -/
theorem test_decode_illegal : decodeWord 0xEEEE = .error (.unimplementedOpcode 0xEEEE) := by decide

/-- R80: "`LD V3, 0x2A` is `w = 0x632A`, stored as 0x63 at address a and 0x2A at address a+1". -/
theorem test_encode_bytes : encode (.ldImm 3 0x2A) = [0x63, 0x2A] := by decide

/-- One byte is no word; two bytes are, and the third is left. -/
theorem test_decode_bytes :
    decode [0x63] = .error .truncated ∧ decode [0x63, 0x2A, 0x99] = .ok (.ldImm 3 0x2A, [0x99]) := by decide

theorem test_table_word : decodeTableWord 16 0xD012 = some (.drw 0 1 2) ∧ decodeTableWord 16 0x8008 = none := by decide

/-! ## One step from a small state -/

/-- The state with these general registers. -/
def regs (l : List (Reg × Byte)) : State := l.foldl (fun s p => s.writeV p.1 p.2) State.reset

/-- The next cycle runs the word and answers a next state of which `p` holds. -/
def runs (w : Nat) (s : State) (p : State → Bool) : Bool :=
  match step (s.withFetchWord 16 w) with
  | .next t => p t
  | .fault _ => false
  | .refused _ => false

/-- The state with a sprite at I (the launch states of R97). -/
def sprite (at_ : Addr) (bytes : List Byte) (s : State) : State :=
  { s with I := at_, mem := s.mem.putBytes at_.toNat bytes }

/-- The state with cell (column 0, row 0) on. -/
def corner (s : State) : State := { s with fb := s.fb.setCell 0 0 true }

/-- V-M1. -/
theorem test_cls : runs 0x00E0 (corner State.reset) (fun t => !t.fb.cell 0 0 && t.dirty && t.pc == 0x202) = true := by decide

/-- V-M5: the popped entry plus 2. -/
theorem test_ret : runs 0x00EE { State.reset with sp := 1, stack := State.reset.stack.set 0 0x345 }
    (fun t => t.sp == 0 && t.pc == 0x347 && t.stack[0] == 0x345) = true := by decide

/-- V-M4: empty stack. -/
theorem test_ret_empty : runs 0x00EE State.reset (fun t => t.sp == 0 && t.pc == 0x202 && t.status == .run) = true := by decide

/-- V-J4: the jump is taken. -/
theorem test_jp : runs 0x1FFF State.reset (fun t => t.pc == 0xFFF && t.status == .run) = true := by decide

/-- V-C3: the sixteenth call. -/
theorem test_call : runs 0x2300 { State.reset with sp := 15 }
    (fun t => t.sp == 16 && t.stack[15] == 0x200 && t.pc == 0x300) = true := by decide

/-- V-C4: the seventeenth. -/
theorem test_call_full : runs 0x2300 { State.reset with sp := 16 }
    (fun t => t.status == .fault && t.cause == .stackOverflow && t.info == 0x200 && t.pc == 0x200 && t.sp == 16) = true := by
  decide

/-- V-I3: VF as data. -/
theorem test_ld_imm : runs 0x6FFF State.reset (fun t => t.readV VF == 0xFF && t.pc == 0x202) = true := by decide

/-- V-I8: 256 clamps. -/
theorem test_add_imm : runs 0x70FF (regs [(0, 0x01)]) (fun t => t.readV 0 == 0xFF && t.readV VF == 0) = true := by decide

/-- V-I11: a set flag is not cleared. -/
theorem test_add_imm_flag : runs 0x75FF (regs [(5, 0x80), (15, 0x01)]) (fun t => t.readV 5 == 0xFF && t.readV VF == 1) = true := by
  decide

/-- V-A1. -/
theorem test_ld_reg : runs 0x8010 (regs [(0, 0x12), (1, 0x34)]) (fun t => t.readV 0 == 0x34 && t.readV 1 == 0x34) = true := by
  decide

/-- V-A4: data, not a flag. -/
theorem test_or : runs 0x8F11 (regs [(15, 0x01), (1, 0x80)]) (fun t => t.readV VF == 0x81) = true := by decide

/-- V-A5. -/
theorem test_and : runs 0x8012 (regs [(0, 0xF0), (1, 0x3C)]) (fun t => t.readV 0 == 0x30 && t.readV 1 == 0x3C) = true := by decide

/-- V-A6. -/
theorem test_xor : runs 0x8013 (regs [(0, 0xFF), (1, 0x0F)]) (fun t => t.readV 0 == 0xF0 && t.readV VF == 0) = true := by decide

/-- V-A8. -/
theorem test_add : runs 0x8014 (regs [(0, 0xFF), (1, 0x01)]) (fun t => t.readV 0 == 0 && t.readV VF == 1) = true := by decide

/-- V-A14: the result wins over the flag. -/
theorem test_add_vf : runs 0x8FF4 (regs [(15, 0x90)]) (fun t => t.readV VF == 0x20) = true := by decide

/-- V-A18. -/
theorem test_sub : runs 0x8015 (regs [(1, 0xFF)]) (fun t => t.readV 0 == 0x01 && t.readV VF == 1) = true := by decide

/-- V-A21: the operand is read before the flag is written. -/
theorem test_sub_vf : runs 0x80F5 (regs [(0, 3), (15, 5)]) (fun t => t.readV 0 == 0xFE && t.readV VF == 1) = true := by decide

/-- V-A28: the shift sees the masked VF. -/
theorem test_shr_vf : runs 0x80F6 (regs [(15, 0xAB)]) (fun t => t.readV VF == 0x0B && t.readV 0 == 0x05) = true := by decide

/-- V-A23 with `SHR_FLAG_MASK` = 0x01. -/
theorem test_shr_low_bit :
    runs 0x8106 { regs [(0, 0xFF), (1, 0x05)] with cfg := ⟨.lowBit⟩ } (fun t => t.readV VF == 0x01 && t.readV 1 == 0x7F) = true := by
  decide

/-- V-A30. -/
theorem test_subn : runs 0x8017 (regs [(0, 5), (1, 3)]) (fun t => t.readV 0 == 0xFE && t.readV VF == 1) = true := by decide

/-- V-A31: a stale 1 is cleared. -/
theorem test_subn_no_borrow : runs 0x8017 (regs [(0, 3), (1, 5), (15, 1)]) (fun t => t.readV 0 == 2 && t.readV VF == 0) = true := by
  decide

/-- V-A35: three registers. -/
theorem test_shl :
    runs 0x801E (regs [(0, 0x11), (1, 0x81)]) (fun t => t.readV VF == 0x80 && t.readV 1 == 0x02 && t.readV 0 == 0x02) = true := by
  decide

/-- V-A41. -/
theorem test_shl_vf : runs 0x80FE (regs [(15, 0xAB)]) (fun t => t.readV VF == 0x40 && t.readV 0 == 0x40) = true := by decide

/-- V-B5: the largest pc. -/
theorem test_jp_v0 : runs 0xBFFF (regs [(0, 0xFF)]) (fun t => t.pc == 0x10FE && t.status == .run) = true := by decide

/-- The worked example of R155: both edges wrap, bit 7 is the left column. -/
theorem test_drw_wraps :
    runs 0xD012 (sprite 0x20A [0xC0, 0x81] (regs [(0, 62), (1, 31)]))
      (fun t => t.fb.cell 31 62 && t.fb.cell 31 63 && !t.fb.cell 31 61 && t.fb.cell 0 62 && t.fb.cell 0 5 && !t.fb.cell 0 6 &&
        t.readV VF == 0 && t.dirty) = true := by decide

/-- V-D7 (byte 0xC0, a collision) and V-D8 (byte 0x40: a cell that stays on under a 0 bit is none). -/
theorem test_drw_collision :
    runs 0xD011 (sprite 0x300 [0xC0] (corner State.reset)) (fun t => !t.fb.cell 0 0 && t.fb.cell 0 1 && t.readV VF == 1) = true ∧
    runs 0xD011 (sprite 0x300 [0x40] (corner State.reset)) (fun t => t.fb.cell 0 0 && t.fb.cell 0 1 && t.readV VF == 0) = true := by
  decide

/-! ## Faults, host ports -/

/-- V-D11 and V-D14. -/
theorem test_drw_outside :
    runs 0xD01F { State.reset with I := 0xFF2 }
      (fun t => t.status == .fault && t.cause.code == 3 && t.info == 0x1000 && !t.dirty && t.pc == 0x200) = true ∧
    runs 0xD011 { State.reset with I := 0xFFFF } (fun t => t.status == .fault && t.info == 0xFFFF) = true := by decide

/-- V-F3: pc = 0xFFF. -/
theorem test_fetch_outside :
    (match step { State.reset with pc := 0xFFF } with
      | .next t => t.status == .fault && t.cause.code == 3 && t.info == 0x1000 && t.pc == 0xFFF
      | _ => false) = true := by decide

/-- V-A43: an illegal word. -/
theorem test_illegal_word :
    runs 0x8008 (regs [(3, 7)])
      (fun t => t.status == .fault && t.cause.code == 1 && t.info == 0x8008 && t.readV 3 == 7 && t.pc == 0x200) = true := by decide

/-- V-F6. -/
theorem test_halted : step { State.reset with status := .fault } = .next { State.reset with status := .fault } := rfl

/-- V-D22. -/
theorem test_render : ({ State.reset with dirty := true } : State).render.dirty = false := by decide

/-- R191: reset, load, cycle, and a cycle too early. -/
theorem test_boot :
    (match Rig.move (.load [0x6A, 0x01]) ⟨State.reset, .wasReset⟩ with
      | .next r => (match Rig.move .cycle r with
        | .next r' => r'.core.readV 10 == 1
        | _ => false)
      | _ => false) = true ∧
    (match Rig.move .cycle ⟨State.reset, .wasReset⟩ with
      | .refused .hostMoveForbidden => true
      | _ => false) = true := by decide

/-! ## Witnesses: for each statement with hypotheses, values that meet them, the boundary ones where a range has any -/

/-- `DecodeOfEncode…` needs none; `EncodeOfDecodeIsTheBytes`, `OperandsAreFieldsOfTheWord`: bytes that decode. -/
theorem witness_decodes : decode [0x63, 0x2A, 0x99] = .ok (.ldImm 3 0x2A, [0x99]) ∧ decodeWord 0xD12F = .ok (.drw 1 2 15) ∧
    decodeWord 0xBFFF = .ok (.jpV0 0xFFF) ∧ decodeWord 0x8F07 = .ok (.subnReg 15 0) ∧ decodeWord 0x00EE = .ok .ret := by decide

/-- `DecoderAgreesWithOpcodeTable`: a word of each clause. -/
theorem witness_rows :
    (∃ i, decodeWord 0x8017 = .ok i) ∧ (∃ row ∈ opcodeTable, (0x8017 : Insn) &&& row.mask = row.pattern) ∧
    ∀ row ∈ opcodeTable, (0x8008 : Insn) &&& row.mask ≠ row.pattern :=
  ⟨⟨.subnReg 0 1, by decide⟩, by decide, by decide⟩

/-- `OpcodeRowsDoNotOverlap`: a row that a word matches. -/
theorem witness_row_match :
    opcodeTable[14]? = some ⟨"SHL_Vx__Vy", 0x800E, 0xF00F⟩ ∧ (0x812E : Insn) &&& 0xF00F = 0x800E := by decide

/-- `StepRunsTheDecodedInstruction`: a fetched word that decodes, at the lowest and the highest pc. -/
theorem witness_fetches_instruction :
    (({ State.reset with pc := 0 } : State).withFetchWord 16 0x6A01).FetchesWord 0x6A01 := by decide

theorem witness_fetches_instruction_top :
    (({ State.reset with pc := 4094 } : State).withFetchWord 16 0x6A01).FetchesWord 0x6A01 ∧
      decodeWord 0x6A01 = .ok (.ldImm 10 1) := by decide

/-- `IllegalWordRaisesUnimplementedOpcode`, `CycleFaultsExactlyWhenTheTableSays` (an illegal word). -/
theorem witness_illegal_word :
    State.reset.FetchesWord 0x0000 ∧ ∀ row ∈ opcodeTable, (0x0000 : Insn) &&& row.mask ≠ row.pattern := by decide

/-- `UncoveredAluNibbleRaises`: the lowest and the highest uncovered nibble. -/
theorem witness_uncovered_nibble :
    ((State.reset.withFetchWord 16 0x8008).FetchesWord 0x8008 ∧ (0x8008 : Insn).toNat / 4096 = 8 ∧
      (0x8008 : Insn).toNat % 16 ∈ [0x8, 0x9, 0xA, 0xB, 0xC, 0xD, 0xF]) ∧
    ((State.reset.withFetchWord 16 0x801F).FetchesWord 0x801F ∧ (0x801F : Insn).toNat / 4096 = 8 ∧
      (0x801F : Insn).toNat % 16 ∈ [0x8, 0x9, 0xA, 0xB, 0xC, 0xD, 0xF]) := by decide

/-- `FetchOutsideMemoryRaises`: the lowest pc out of bounds, and beyond memory. -/
theorem witness_fetch_outside :
    (({ State.reset with pc := 4095 } : State).Running ∧ 4094 < ({ State.reset with pc := 4095 } : State).pc.toNat) ∧
    (({ State.reset with pc := 4350 } : State).Running ∧ 4094 < ({ State.reset with pc := 4350 } : State).pc.toNat) := by decide

/-- `HaltedCoreIgnoresCycles`. -/
theorem witness_halted : ({ State.reset with status := .fault } : State).status = .fault := rfl

/-- The state that `CycleFaultsExactlyWhenTheTableSays`, `KeysAndDirtyNeverMatter`, `RunsNeverWriteMemoryOrIndex` and
`StepKeepsTheInvariant` start from and the one they reach. -/
theorem witness_step :
    State.reset.Running ∧ State.reset.Inv ∧ step State.reset = .next (State.reset.faulted .unimplementedOpcode 0) ∧
    Sys2Proof.core.run 1 State.reset = .next (State.reset.faulted .unimplementedOpcode 0) :=
  ⟨rfl, ⟨rfl, fun _ h => absurd h (Nat.not_lt_zero _), by decide, by decide, fun _ => rfl⟩, by rfl, by rfl⟩

/-- `CycleFaultsExactlyWhenTheTableSays`: a running state for each of the other two ways to fault. -/
theorem witness_fault_ways :
    ((({ State.reset with sp := 16 } : State).withFetchWord 16 0x2300).FetchesWord 0x2300 ∧
      decodeWord 0x2300 = .ok (.call 0x300)) ∧
    ((({ State.reset with I := 4095 } : State).withFetchWord 16 0xD012).FetchesWord 0xD012 ∧
      decodeWord 0xD012 = .ok (.drw 0 1 2) ∧ 4096 < (4095 : Addr).toNat + (2 : Height).val) := by decide

/-- `NothingElseFaults`: a call with one entry free and a draw whose last byte is at 4095. -/
theorem witness_no_fault :
    (∀ nnn, Instr.call 0x300 = .call nnn → ({ State.reset with sp := 15 } : State).sp.val ≠ 16) ∧
    (∀ x y n, Instr.drw 0 1 15 = .drw x y n → n.val = 0 ∨ ({ State.reset with I := 0xFF1 } : State).I.toNat + n.val ≤ 4096) := by
  refine ⟨fun _ _ => by decide, fun x y n h => ?_⟩
  cases h
  decide

/-- `IdleLoopIsAFixedPoint`. -/
theorem witness_idle : (State.reset.withFetchWord 16 0x1200).AtIdleLoop := by decide

/-- `MemoriesThatReadAlikeAreEqual`, `LoadPlacesTheImage`, `PlacedWordIsFetched`: canonical memories. -/
theorem witness_canonical_memory :
    Memory.wf [(0x200, 0x60), (0xFFF, 0x01)] = true ∧ State.reset.mem.wf = true ∧ State.reset.Running ∧
    State.reset.pc.toNat ≤ 4094 := by decide

/-- `ReturnPopsOrSkips`: an empty stack, one entry, a full stack. -/
theorem witness_return :
    State.reset.sp.val = 0 ∧ ({ State.reset with sp := 1 } : State).sp.val = (0 : Fin 16).val + 1 ∧
    ({ State.reset with sp := 16 } : State).sp.val = (15 : Fin 16).val + 1 := by decide

/-- `JumpSetsPc`: the two clauses on the target. -/
theorem witness_jump : (0xFFF : Operand) = 0xFFF ∧ State.reset.Running ∧ State.reset.pc.toNat = (0x200 : Operand).toNat := by decide

/-- `CallPushesItsOwnAddress`, `CallThenReturnComesBack`, `CallOnAFullStackRaises`: empty, one free, full. -/
theorem witness_call :
    State.reset.sp.val = (0 : Fin 16).val ∧ ({ State.reset with sp := 15 } : State).sp.val = (15 : Fin 16).val ∧
    ({ State.reset with sp := 15 } : State).sp.val < 16 ∧ ({ State.reset with sp := 16 } : State).sp.val = 16 := by decide

/-- `ShiftRightMasksThenShifts`, `ShiftLeftMasksThenShiftsBoth`, `VFAsBothOperands`: flags of V1 = 0xA7 under each mask. -/
theorem witness_shift_flags :
    (State.reset.cfg.shrFlagMask = .lowNibble ∧ ((regs [(1, 0xA7)]).readV 1).toNat % 16 = 7) ∧
    ((⟨.lowBit⟩ : Config).shrFlagMask = .lowBit ∧ ((regs [(1, 0xA7)]).readV 1).toNat % 2 = 1) ∧
    ((regs [(1, 0xA7)]).readV 1).toNat / 16 * 16 = 0xA0 ∧ 0xA7 * 2 % 256 = 0x4E := by decide

/-- `DrawXorsTheSprite`: no row, and the last sprite that fits. -/
theorem witness_draw_inside :
    ((0 : Height).val = 0 ∨ ({ State.reset with I := 0xFFFF } : State).I.toNat + (0 : Height).val ≤ 4096) ∧
    ((15 : Height).val = 0 ∨ ({ State.reset with I := 0xFF1 } : State).I.toNat + (15 : Height).val ≤ 4096) := by decide

/-- `DrawXorsTheSprite`, the two clauses on VF: a cell that is on meets a 1 bit, and none does. -/
theorem witness_draw_flag :
    (∃ r c, (sprite 0x300 [0xC0] (corner State.reset)).fb.cell r c = true ∧
      spritePixel (sprite 0x300 [0xC0] (corner State.reset)) 0 0 1 r c = true) ∧
    (∀ r c, State.reset.fb.cell r c = true → spritePixel State.reset 0 0 1 r c = false) :=
  ⟨⟨0, 0, by decide⟩, fun r c h => by rw [show State.reset.fb = Fb.off from rfl, Fb.cell_off] at h; cases h⟩

/-- `DrawOutsideMemoryRaises`: the first byte at 4096, and the second. -/
theorem witness_draw_outside :
    (0 < (1 : Height).val ∧ 4096 < ({ State.reset with I := 4096 } : State).I.toNat + (1 : Height).val) ∧
    (0 < (2 : Height).val ∧ 4096 < ({ State.reset with I := 4095 } : State).I.toNat + (2 : Height).val) := by decide

/-- `DrawingTwiceRestores`: a first draw that turns a cell on, and the state of the second draw. -/
theorem witness_draw_twice :
    ∃ t, exec (.drw 0 1 1) (sprite 0x300 [0x80] State.reset) = .next t ∧ t.readV 0 = (sprite 0x300 [0x80] State.reset).readV 0 ∧
      t.readV 1 = (sprite 0x300 [0x80] State.reset).readV 1 ∧ t.I = (sprite 0x300 [0x80] State.reset).I ∧
      (∀ k, k < 1 → t.mem.read (0x300 + k) = (sprite 0x300 [0x80] State.reset).mem.read (0x300 + k)) ∧
      (sprite 0x300 [0x80] State.reset).fb.cell 0 0 = false ∧ t.fb.cell 0 0 = true :=
  ⟨_, rfl, by decide, by decide, rfl, fun _ _ => rfl, by decide, by decide⟩

/-- `BlankSpriteAndClearScreenGiveNoCollision`: zero bytes at I, and a clear framebuffer. -/
theorem witness_blank :
    (∀ k, k < (15 : Height).val → State.reset.mem.read (State.reset.I.toNat + k) = 0) ∧
    (∀ r c, State.reset.fb.cell r c = false) :=
  ⟨fun _ _ => rfl, fun r c => Fb.cell_off r c⟩

/-- `RenderOnlyClearsDirty`: both values of `dirty`. -/
theorem witness_dirty : State.reset.dirty = false ∧ State.reset.clearDisplay.dirty = true := by decide

/-- `VFChangesOnlyAsFlagOrDestination`: an instruction that changes VF. -/
theorem witness_vf_changes :
    ∃ t, exec (.ldImm 15 1) State.reset = .next t ∧ t.readV VF ≠ State.reset.readV VF := ⟨_, rfl, by decide⟩

/-- `StackAndDisplayHaveTheirOwnWriters`: instructions that push, pop, and change the display. -/
theorem witness_writers :
    (∃ t, exec (.call 0x300) State.reset = .next t ∧ t.stack ≠ State.reset.stack ∧ State.reset.sp.val < t.sp.val) ∧
    (∃ t, exec .ret { State.reset with sp := 1 } = .next t ∧ t.sp.val < 1) ∧
    (∃ t, exec .cls (corner State.reset) = .next t ∧ t.fb ≠ (corner State.reset).fb ∧ t.dirty = true) :=
  ⟨⟨_, rfl, by decide, by decide⟩, ⟨_, rfl, by decide⟩, ⟨_, rfl, by decide, rfl⟩⟩

/-- `LoadPlacesTheImage`, `BootSequenceLaunches`: the longest image, and one byte more. -/
theorem witness_images :
    (List.replicate 3584 (0x60 : Byte)).length ≤ 3584 ∧ 3584 < (List.replicate 3585 (0x60 : Byte)).length := by
  rw [List.length_replicate, List.length_replicate]
  decide

/-- `HostMovesOutOfPlaceAreRefused`: a rig for each clause. -/
theorem witness_phases :
    (Rig.mk State.reset .wasReset).phase = .wasReset ∧ (Rig.mk State.reset .cycling).phase ≠ .wasReset := by decide

end Sys2Proof.Tests
end

section
/-! PROOFS. The cycle and the dispatch (40_cycle_and_dispatch.md). -/

namespace Sys2Proof.Machine

/-- Settles O7: the fetched word is `w` with nothing moved (steps 1 to 3 of R90), and a word that decodes is executed on
the same state (steps 4 to 6). -/
theorem stepRunsTheDecodedInstruction : Obligations.StepRunsTheDecodedInstruction := by
  intro s w i hfetch hdecode
  calc step s = execWord w s := step_of_fetchesWord hfetch
    _ = exec i s := execWord_ok s hdecode

end Sys2Proof.Machine
end

section
/-! PROOFS. Family 0x0 (41_misc.md). -/

namespace Sys2Proof

/-- Family 0x0 matches on the whole word, so one word alone is `CLS` (R74, R100). -/
theorem decodeWord_eq_cls_iff (w : Insn) : decodeWord w = .ok .cls ↔ w = 0x00E0 := by
  constructor
  · intro hdecode
    have hspec := decodeWord_spec w
    rw [hdecode] at hspec
    cases hspec with
    | cls hw => exact (word_eq_iff w 0xE0 (by decide)).2 hw
  · rintro rfl
    decide

end Sys2Proof

namespace Sys2Proof.Machine

/-- `CLS` clears the display and completes with the advance of 2 (R93, R100). -/
theorem exec_cls (s : State) : exec .cls s = .next (s.clearDisplay.setPc (s.pc + 2)) := rfl

/-- Settles O22: the decoder answers `CLS` for 0x00E0 only, and the state after it is `clearDisplay` with pc moved by 2,
which leaves every other field as it was. -/
theorem clearTurnsEveryCellOff : Obligations.ClearTurnsEveryCellOff := by
  refine ⟨decodeWord_eq_cls_iff, fun s => ⟨_, exec_cls s, ?cells, ?dirty, ?pc, ?frame, ?memory⟩⟩
  case cells =>
    intro r c
    rw [State.setPc_fb, State.clearDisplay_fb, Fb.cell_off]
  case dirty => rw [State.setPc_dirty, State.clearDisplay_dirty]
  case pc => rw [State.setPc_pc]
  case frame => rfl
  case memory =>
    intro a
    rw [State.setPc_mem, State.clearDisplay_mem]

end Sys2Proof.Machine
end

section
/-! PROOFS. Family 0x1, jump (42_jump_call.md). -/

namespace Sys2Proof

/-- The mask 0xF000 of R75 keeps exactly the high nibble of a word. -/
theorem and_opMask_eq_iff (w : Insn) {k : Nat} (hk : k < 16) :
    w &&& 0xF000 = BitVec.ofNat 16 (k * 4096) ↔ w.toNat / 4096 = k := by
  rw [word_eq_iff _ _ (by omega), and_opMask_toNat]
  omega

/-- Family 0x1 is routed on the high nibble alone, so no operand bit decides whether a word is `JP` (R74, R110). -/
theorem decodeWord_eq_jp_iff (w : Insn) : (∃ nnn, decodeWord w = .ok (.jp nnn)) ↔ w &&& 0xF000 = 0x1000 := by
  rw [show (0x1000 : Insn) = BitVec.ofNat 16 (1 * 4096) from rfl, and_opMask_eq_iff w (by decide)]
  constructor
  · rintro ⟨nnn, hdecode⟩
    have hspec := decodeWord_spec w
    rw [hdecode] at hspec
    cases hspec with
    | jp hop => exact hop
  · intro hop
    exact ⟨nnnField w, by rw [decodeWord_by_numbers, hop]; rfl⟩

end Sys2Proof

namespace Sys2Proof.Machine

/-- An operand is zero-extended to a pc value, so none of it is lost (R73). -/
@[simp] theorem targetOf_toNat (nnn : Operand) : (targetOf nnn).toNat = nnn.toNat := by
  have := nnn.isLt
  simp only [targetOf, BitVec.toNat_ofNat]
  omega

@[simp] theorem State.setPc_self (s : State) : s.setPc s.pc = s := rfl

/-- Setting pc leaves every other field and every byte of memory as it was. -/
theorem State.onlyPc_setPc (s : State) (t : Addr) : OnlyPc s (s.setPc t) :=
  ⟨rfl, fun _ => by rw [State.setPc_mem]⟩

/-- The advance of an instruction that has set pc itself leaves that pc standing (R93). -/
theorem complete_advNone (s : State) : complete advNone s = .next s := by
  have hpc : s.pc + advNone = s.pc := BitVec.add_zero s.pc
  rw [complete_eq, hpc, State.setPc_self]

/-- `JP nnn` sets pc to its operand and completes with no advance (R93, R110). -/
theorem exec_jp (nnn : Operand) (s : State) : exec (.jp nnn) s = .next (s.setPc (targetOf nnn)) :=
  complete_advNone _

/-- A running core whose pc leaves no room for a word in memory raises `AddressRange` (R173): of the four ways a step goes
the other three need a halted core or a word that was fetched. -/
theorem step_of_pc_outside {s : State} (hrun : s.Running) (hpc : 4094 < s.pc.toNat) :
    step s = .next (s.faulted .addressRange (firstOutside s.pc.toNat)) := by
  obtain ⟨hhalted, -⟩ | ⟨-, -, hstep⟩ | ⟨w, ⟨-, hin, -⟩, -⟩ | ⟨w, i, ⟨-, hin, -⟩, -⟩ := step_cases s
  · exact absurd (hrun.symm.trans hhalted) (by decide)
  · exact hstep
  · omega
  · omega

/-- Settles O24: the state after `JP` is `setPc` of the operand, and the clauses on the target follow from the value of
that pc: at 0xFFF the next fetch is out of range, and at the instruction's own address nothing has moved. -/
theorem jumpSetsPc : Obligations.JumpSetsPc := by
  refine ⟨decodeWord_eq_jp_iff, fun nnn s => ⟨_, exec_jp nnn s, targetOf_toNat nnn, State.onlyPc_setPc s _, ?top, ?own⟩⟩
  case top =>
    rintro rfl hrun
    have hpc : 4094 < (s.setPc (targetOf 0xFFF)).pc.toNat := by
      rw [State.setPc_pc]
      decide
    exact ⟨_, step_of_pc_outside hrun hpc, State.faulted_status .., State.faulted_cause ..⟩
  case own =>
    intro hpc
    have htarget : targetOf nnn = s.pc := BitVec.eq_of_toNat_eq ((targetOf_toNat nnn).trans hpc.symm)
    rw [htarget, State.setPc_self]

end Sys2Proof.Machine
end

section
/-! PROOFS. Families 0x6 and 0x7 (43_immediate.md). -/

namespace Sys2Proof

/-- Family 0x6 is routed on the high nibble alone, so no operand bit decides whether a word is `LD Vx, kk` (R74, R120). -/
theorem decodeWord_eq_ldImm_iff (w : Insn) : (∃ x kk, decodeWord w = .ok (.ldImm x kk)) ↔ w &&& 0xF000 = 0x6000 := by
  rw [show (0x6000 : Insn) = BitVec.ofNat 16 (6 * 4096) from rfl, and_opMask_eq_iff w (by decide)]
  constructor
  · rintro ⟨x, kk, hdecode⟩
    have hspec := decodeWord_spec w
    rw [hdecode] at hspec
    cases hspec with
    | ldImm hop => exact hop
  · intro hop
    exact ⟨xField w, kkField w, by rw [decodeWord_by_numbers, hop]; rfl⟩

/-- Family 0x7 is routed on the high nibble alone, so no operand bit decides whether a word is `ADD Vx, kk` (R74, R121). -/
theorem decodeWord_eq_addImm_iff (w : Insn) : (∃ x kk, decodeWord w = .ok (.addImm x kk)) ↔ w &&& 0xF000 = 0x7000 := by
  rw [show (0x7000 : Insn) = BitVec.ofNat 16 (7 * 4096) from rfl, and_opMask_eq_iff w (by decide)]
  constructor
  · rintro ⟨x, kk, hdecode⟩
    have hspec := decodeWord_spec w
    rw [hdecode] at hspec
    cases hspec with
    | addImm hop => exact hop
  · intro hop
    exact ⟨xField w, kkField w, by rw [decodeWord_by_numbers, hop]; rfl⟩

end Sys2Proof

namespace Sys2Proof.Machine

/-- The clamped sum fits a byte, so no bit of it is lost (R121). -/
@[simp] theorem addSaturating_toNat (a b : Byte) : (addSaturating a b).toNat = min (a.toNat + b.toNat) 255 := by
  have hfits : min (a.toNat + b.toNat) 255 < 2 ^ 8 := by omega
  rw [addSaturating, BitVec.toNat_ofNat, Nat.mod_eq_of_lt hfits]

/-- A write of one register leaves every other register as it was, and setting pc after it touches none. -/
theorem State.sameRegsBut_writeV_setPc (s : State) (x : Reg) (v : Byte) (t : Addr) :
    SameRegsBut [x] s ((s.writeV x v).setPc t) := by
  intro r hr
  have hne : r ≠ x := List.ne_of_not_mem_cons hr
  rw [State.readV_setPc, State.readV_writeV_other s v hne]

/-- A write of one register and of pc leaves every other field and every byte of memory as it was. -/
theorem State.onlyVPc_writeV_setPc (s : State) (x : Reg) (v : Byte) (t : Addr) :
    OnlyVPc s ((s.writeV x v).setPc t) :=
  ⟨rfl, fun _ => by rw [State.setPc_mem, State.writeV_mem]⟩

/-- An instruction whose whole effect is one register write, completed with the advance of 2, changes that register and pc
and nothing else (R93). -/
theorem writesOneRegister_of_exec {i : Instr} {x : Reg} {v : Byte} {s : State}
    (h : exec i s = complete advInsn (s.writeV x v)) : WritesOneRegister i x v s := by
  refine ⟨_, h, ?value, State.sameRegsBut_writeV_setPc s x v _, ?pc, State.onlyVPc_writeV_setPc s x v _⟩
  case value => rw [State.readV_setPc, State.readV_writeV_same]
  case pc => rw [State.setPc_pc, State.writeV_pc, advInsn]

/-- `LD Vx, kk` writes its operand to `V[x]` (R120). -/
theorem ldImm_writesOneRegister (x : Reg) (kk : Byte) (s : State) : WritesOneRegister (.ldImm x kk) x kk s :=
  writesOneRegister_of_exec rfl

/-- `ADD Vx, kk` writes the clamped sum to `V[x]`, and no flag with it (R121). -/
theorem addImm_writesOneRegister (x : Reg) (kk : Byte) (s : State) :
    WritesOneRegister (.addImm x kk) x (addSaturating (s.readV x) kk) s :=
  writesOneRegister_of_exec rfl

/-- Settles O29: the high nibble alone decodes to `LD Vx, kk`, and its effect is one write of `kk` to `V[x]`. -/
theorem loadImmediateSetsVx : Obligations.LoadImmediateSetsVx :=
  ⟨decodeWord_eq_ldImm_iff, ldImm_writesOneRegister⟩

/-- Settles O30: the high nibble alone decodes to `ADD Vx, kk`, and its effect is one write to `V[x]`, of a byte whose
number is the clamped sum. -/
theorem addImmediateSaturates : Obligations.AddImmediateSaturates := by
  refine ⟨decodeWord_eq_addImm_iff, fun x kk s => ?effect⟩
  obtain ⟨t, hexec, hvalue, hframe⟩ := addImm_writesOneRegister x kk s
  have hsum : (t.readV x).toNat = min ((s.readV x).toNat + kk.toNat) 255 := by
    rw [hvalue, addSaturating_toNat]
  exact ⟨t, hexec, hsum, hframe⟩

end Sys2Proof.Machine
end

section
/-! PROOFS. Family 0x8, the ALU (44_alu.md). -/

namespace Sys2Proof

/-- Family 0x8 has no instruction at the other seven low nibbles: the decoder rejects the word, whatever its x and y
(R74, R140). -/
theorem decodeWord_of_uncovered_alu_nibble {w : Insn} (hop : w.toNat / 4096 = 0x8)
    (hn : w.toNat % 16 ∈ [0x8, 0x9, 0xA, 0xB, 0xC, 0xD, 0xF]) :
    decodeWord w = .error (.unimplementedOpcode w) := by
  have hspec := decodeWord_by_numbers w
  rw [hop] at hspec
  generalize w.toNat % 16 = n at hn hspec
  simp only [List.mem_cons, List.not_mem_nil, or_false] at hn
  rcases hn with rfl | rfl | rfl | rfl | rfl | rfl | rfl <;> exact hspec

end Sys2Proof

namespace Sys2Proof.Machine

/-- A fault leaves every field but STATUS, CAUSE and INFO, and every byte of memory, as it was (R170). -/
theorem State.onlyFaultRegs_faulted (s : State) (c : Cause) (info : BitVec 16) : OnlyFaultRegs s (s.faulted c info) :=
  ⟨rfl, fun _ => by rw [State.faulted_mem]⟩

/-- Settles O9: the decoder rejects the word, so the cycle faults with the word as INFO, and a fault writes no register. -/
theorem uncoveredAluNibbleRaises : Obligations.UncoveredAluNibbleRaises := by
  intro s w hfetch hop hn
  have hstep : step s = .next (s.faulted .unimplementedOpcode w) := by
    rw [step_of_fetchesWord hfetch, execWord_error s (decodeWord_of_uncovered_alu_nibble hop hn)]
  exact ⟨_, hstep, State.faulted_status .., State.faulted_cause .., State.faulted_info ..,
    State.readV_faulted s _ _, State.onlyFaultRegs_faulted s _ _⟩

end Sys2Proof.Machine
end

section
/-! PROOFS. Faults (60_exceptions.md). -/

namespace Sys2Proof

/-- The mask 0xFFFF of R75 keeps the whole word, so a row of family 0x0 matches one word alone (D9). -/
theorem and_wordMask_eq_iff (w : Insn) {k : Nat} (hk : k < 65536) :
    w &&& 0xFFFF = BitVec.ofNat 16 k ↔ w.toNat = k := by
  rw [show (0xFFFF : Insn) = BitVec.allOnes 16 from rfl, BitVec.and_allOnes, word_eq_iff w k hk]

/-- The mask 0xF00F of R75 keeps exactly the high and the low nibble of a word. -/
theorem and_subMask_eq_iff (w : Insn) {k n : Nat} (hk : k < 16) (hn : n < 16) :
    w &&& 0xF00F = BitVec.ofNat 16 (k * 4096 + n) ↔ w.toNat / 4096 = k ∧ w.toNat % 16 = n := by
  rw [word_eq_iff _ _ (by omega), and_subMask_toNat]
  omega

/-- A word that decodes matches the row of its instruction: the tree of R74 routes on exactly the bits that the row's mask
in R75 keeps. -/
theorem opcodeRow_of_decodeWord_ok {w : Insn} {i : Instr} (h : decodeWord w = .ok i) :
    ∃ row, opcodeTable[i.rowNumber]? = some row ∧ w &&& row.mask = row.pattern := by
  have hspec := decodeWord_spec w
  rw [h] at hspec
  cases hspec with
  | cls hw | ret hw => exact ⟨_, rfl, (and_wordMask_eq_iff w (by decide)).2 hw⟩
  | jp hop | call hop | ldImm hop | addImm hop | jpV0 hop | drw hop =>
    exact ⟨_, rfl, (and_opMask_eq_iff w (by decide)).2 hop⟩
  | ldReg hop hn | orReg hop hn | andReg hop hn | xorReg hop hn | addReg hop hn | subReg hop hn | shrReg hop hn
  | subnReg hop hn | shlReg hop hn =>
    exact ⟨_, rfl, (and_subMask_eq_iff w (by decide) (by decide)).2 ⟨hop, hn⟩⟩

/-- The decoder rejects a word that no row of the opcode map matches (R76). -/
theorem decodeWord_error_of_no_row {w : Insn} (hrows : ∀ row ∈ opcodeTable, w &&& row.mask ≠ row.pattern) :
    ∃ r, decodeWord w = .error r := by
  cases hdecode : decodeWord w with
  | error r => exact ⟨r, rfl⟩
  | ok i =>
    obtain ⟨row, hrow, hmatch⟩ := opcodeRow_of_decodeWord_ok hdecode
    exact absurd hmatch (hrows row (List.mem_of_getElem? hrow))

end Sys2Proof

namespace Sys2Proof.Machine

/-- Settles O8: a word that no row matches does not decode, so the cycle that fetched it faults with the word as INFO. -/
theorem illegalWordRaisesUnimplementedOpcode : Obligations.IllegalWordRaisesUnimplementedOpcode := by
  intro s w hfetch hrows
  obtain ⟨r, hdecode⟩ := decodeWord_error_of_no_row hrows
  have hstep : step s = .next (s.faulted .unimplementedOpcode w) := by
    rw [step_of_fetchesWord hfetch, execWord_error s hdecode]
  have hcause : (s.faulted .unimplementedOpcode w).cause = .unimplementedOpcode := State.faulted_cause ..
  have hcode : (s.faulted .unimplementedOpcode w).cause.code = 1 := by
    rw [hcause, Cause.code]
  exact ⟨_, hstep, State.faulted_status .., hcause, hcode, State.faulted_info .., State.onlyFaultRegs_faulted s _ _⟩

end Sys2Proof.Machine
end

section
/-! PROOFS. The encoding (30_encoding.md): the encoder against the decoder, and the decoder against the opcode map. -/

namespace Sys2Proof

/-! ## The fields of an encoded word are the operands it was made from -/

theorem wordNNN_op {op : Nat} (hop : op < 16) (nnn : Operand) : (wordNNN op nnn).toNat / 4096 = op := by
  have := nnn.isLt
  rw [wordNNN_toNat hop]
  omega

theorem nnnField_wordNNN {op : Nat} (hop : op < 16) (nnn : Operand) : nnnField (wordNNN op nnn) = nnn := by
  have := nnn.isLt
  apply BitVec.eq_of_toNat_eq
  rw [nnnField_toNat, wordNNN_toNat hop]
  omega

theorem wordXKK_op {op : Nat} (hop : op < 16) (x : Reg) (kk : Byte) : (wordXKK op x kk).toNat / 4096 = op := by
  have := x.isLt
  have := kk.isLt
  rw [wordXKK_toNat hop]
  omega

theorem xField_wordXKK {op : Nat} (hop : op < 16) (x : Reg) (kk : Byte) : xField (wordXKK op x kk) = x := by
  have := x.isLt
  have := kk.isLt
  apply Fin.ext
  rw [xField_val, wordXKK_toNat hop]
  omega

theorem kkField_wordXKK {op : Nat} (hop : op < 16) (x : Reg) (kk : Byte) : kkField (wordXKK op x kk) = kk := by
  have := kk.isLt
  apply BitVec.eq_of_toNat_eq
  rw [kkField_toNat, wordXKK_toNat hop]
  omega

theorem wordXYN_op {op n : Nat} (hop : op < 16) (x y : Reg) (hn : n < 16) : (wordXYN op x y n).toNat / 4096 = op := by
  have := x.isLt
  have := y.isLt
  rw [wordXYN_toNat hop x y hn]
  omega

theorem wordXYN_sub {op n : Nat} (hop : op < 16) (x y : Reg) (hn : n < 16) : (wordXYN op x y n).toNat % 16 = n := by
  rw [wordXYN_toNat hop x y hn]
  omega

theorem xField_wordXYN {op n : Nat} (hop : op < 16) (x y : Reg) (hn : n < 16) : xField (wordXYN op x y n) = x := by
  have := x.isLt
  have := y.isLt
  apply Fin.ext
  rw [xField_val, wordXYN_toNat hop x y hn]
  omega

theorem yField_wordXYN {op n : Nat} (hop : op < 16) (x y : Reg) (hn : n < 16) : yField (wordXYN op x y n) = y := by
  have := y.isLt
  apply Fin.ext
  rw [yField_val, wordXYN_toNat hop x y hn]
  omega

theorem heightField_wordXYN {op : Nat} (hop : op < 16) (x y : Reg) (n : Height) :
    heightField (wordXYN op x y n.val) = n :=
  Fin.ext (by rw [heightField_val, wordXYN_sub hop x y n.isLt])

/-! ## Decoding what was encoded -/

/-- The decoder reads the instruction back from its word: the format's fields route it to the constructor and give its
operands (R71, R74). -/
theorem decodeWord_encodeWord (i : Instr) : decodeWord (encodeWord i) = .ok i := by
  cases i with
  | cls | ret => decide
  | jp nnn | call nnn | jpV0 nnn =>
    rw [encodeWord, decodeWord_by_numbers, wordNNN_op (by decide), nnnField_wordNNN (by decide)]
    rfl
  | ldImm x kk | addImm x kk =>
    rw [encodeWord, decodeWord_by_numbers, wordXKK_op (by decide), xField_wordXKK (by decide), kkField_wordXKK (by decide)]
    rfl
  | ldReg x y | orReg x y | andReg x y | xorReg x y | addReg x y | subReg x y | shrReg x y | subnReg x y | shlReg x y =>
    rw [encodeWord, decodeWord_by_numbers, wordXYN_op (by decide) x y (by decide), wordXYN_sub (by decide) x y (by decide),
      xField_wordXYN (by decide) x y (by decide), yField_wordXYN (by decide) x y (by decide)]
    rfl
  | drw x y n =>
    rw [encodeWord, decodeWord_by_numbers, wordXYN_op (by decide) x y n.isLt, xField_wordXYN (by decide) x y n.isLt,
      yField_wordXYN (by decide) x y n.isLt, heightField_wordXYN (by decide)]
    rfl

/-- The decoder reads the two bytes of a word and leaves the bytes behind them (R77, R80). -/
theorem decode_wordBytes_append {w : Insn} {i : Instr} (h : decodeWord w = .ok i) (rest : List Byte) :
    decode (wordBytes w ++ rest) = .ok (i, rest) := by
  simp only [wordBytes, List.cons_append, List.nil_append, decode, composeWord_bytes, h]

/-- Settles O1: the two bytes of an instruction compose to its word, and the decoder reads the instruction back from it. -/
theorem decodeOfEncodeIsTheInstruction : Obligations.DecodeOfEncodeIsTheInstruction :=
  fun i rest => decode_wordBytes_append (decodeWord_encodeWord i) rest

/-! ## Encoding what was decoded -/

theorem wordNNN_nnnField {w : Insn} {op : Nat} (hop : w.toNat / 4096 = op) : wordNNN op (nnnField w) = w := by
  have := w.isLt
  apply BitVec.eq_of_toNat_eq
  rw [wordNNN_toNat (by omega), nnnField_toNat]
  omega

theorem wordXKK_fields {w : Insn} {op : Nat} (hop : w.toNat / 4096 = op) : wordXKK op (xField w) (kkField w) = w := by
  have := w.isLt
  apply BitVec.eq_of_toNat_eq
  rw [wordXKK_toNat (by omega), xField_val, kkField_toNat]
  omega

theorem wordXYN_fields {w : Insn} {op n : Nat} (hop : w.toNat / 4096 = op) (hn : w.toNat % 16 = n) :
    wordXYN op (xField w) (yField w) n = w := by
  have := w.isLt
  apply BitVec.eq_of_toNat_eq
  rw [wordXYN_toNat (by omega) _ _ (by omega), xField_val, yField_val]
  omega

/-- The encoder gives back the word that was decoded: the bits the tree of R74 routed on and the operand bits are all the
bits there are. -/
theorem encodeWord_of_decodeWord {w : Insn} {i : Instr} (h : decodeWord w = .ok i) : encodeWord i = w := by
  have hspec := decodeWord_spec w
  rw [h] at hspec
  cases hspec with
  | cls hw | ret hw => exact (BitVec.eq_of_toNat_eq hw).symm
  | jp hop | call hop | jpV0 hop => exact wordNNN_nnnField hop
  | ldImm hop | addImm hop => exact wordXKK_fields hop
  | ldReg hop hn | orReg hop hn | andReg hop hn | xorReg hop hn | addReg hop hn | subReg hop hn | shrReg hop hn
  | subnReg hop hn | shlReg hop hn => exact wordXYN_fields hop hn
  | drw hop => exact wordXYN_fields hop (heightField_val w).symm

/-- Two bytes are the bytes of the word they compose to (R52, R80). -/
theorem wordBytes_composeWord (hi lo : Byte) : wordBytes (composeWord hi lo) = [hi, lo] := by
  have := hi.isLt
  have := lo.isLt
  have hhi : highByte (composeWord hi lo) = hi := by
    apply BitVec.eq_of_toNat_eq
    rw [highByte_toNat, Machine.composeWord_toNat]
    omega
  have hlo : lowByte (composeWord hi lo) = lo := by
    apply BitVec.eq_of_toNat_eq
    rw [lowByte_toNat, Machine.composeWord_toNat]
    omega
  rw [wordBytes, hhi, hlo]

/-- Two bytes decode only if their word does, and what follows them is left (R70, R77). -/
theorem decodeWord_of_decode {hi lo : Byte} {rest rest' : List Byte} {i : Instr}
    (h : decode (hi :: lo :: rest) = .ok (i, rest')) : decodeWord (composeWord hi lo) = .ok i ∧ rest' = rest := by
  rw [decode] at h
  cases hdecode : decodeWord (composeWord hi lo) with
  | error r =>
    rw [hdecode] at h
    cases h
  | ok j =>
    rw [hdecode] at h
    cases h
    exact ⟨rfl, rfl⟩

/-- Settles O2: the word the two bytes compose to is the encoding of what it decodes to, and its bytes are those two. -/
theorem encodeOfDecodeIsTheBytes : Obligations.EncodeOfDecodeIsTheBytes := by
  intro hi lo rest rest' i h
  obtain ⟨hword, hrest⟩ := decodeWord_of_decode h
  refine ⟨?_, hrest⟩
  rw [encode, encodeWord_of_decodeWord hword, wordBytes_composeWord]

/-! ## The opcode map -/

/-- A row with the mask 0xF000 fixes the high nibble of the words it matches. -/
theorem op_of_and_opMask {w p : Insn} (h : w &&& 0xF000 = p) : w.toNat / 4096 = p.toNat / 4096 := by
  rw [← h, and_opMask_toNat]
  omega

/-- A row with the mask 0xF00F fixes the high and the low nibble of the words it matches. -/
theorem op_sub_of_and_subMask {w p : Insn} (h : w &&& 0xF00F = p) :
    w.toNat / 4096 = p.toNat / 4096 ∧ w.toNat % 16 = p.toNat % 16 := by
  rw [← h, and_subMask_toNat]
  omega

/-- A word that a row of the opcode map matches decodes to the instruction of that row. -/
theorem decodeWord_of_opcodeRow {w : Insn} {row : OpcodeRow} {k : Nat} (hrow : opcodeTable[k]? = some row)
    (hmatch : w &&& row.mask = row.pattern) : ∃ i, decodeWord w = .ok i ∧ i.rowNumber = k := by
  obtain ⟨hk, -⟩ := List.getElem?_eq_some_iff.1 hrow
  match k, hrow, hk with
  | 0, rfl, _ | 1, rfl, _ =>
    rw [(BitVec.and_allOnes (x := w)).symm.trans hmatch]
    exact ⟨_, rfl, rfl⟩
  | 2, rfl, _ | 3, rfl, _ | 4, rfl, _ | 5, rfl, _ | 15, rfl, _ | 16, rfl, _ =>
    have hop := op_of_and_opMask hmatch
    exact ⟨_, by rw [decodeWord_by_numbers, hop]; rfl, rfl⟩
  | 6, rfl, _ | 7, rfl, _ | 8, rfl, _ | 9, rfl, _ | 10, rfl, _ | 11, rfl, _ | 12, rfl, _ | 13, rfl, _ | 14, rfl, _ =>
    obtain ⟨hop, hn⟩ := op_sub_of_and_subMask hmatch
    exact ⟨_, by rw [decodeWord_by_numbers, hop, hn]; rfl, rfl⟩
  | k + 17, _, hk => exact absurd hk (Nat.not_lt.2 (Nat.le_add_left 17 k))

/-- The one reason the decoder has to reject a word is that the word is no instruction, and it names the word (R76). -/
theorem decodeWord_error_eq {w : Insn} {r : Reject} (h : decodeWord w = .error r) : r = .unimplementedOpcode w := by
  have hspec := decodeWord_spec w
  rw [h] at hspec
  cases hspec with
  | illegal _ => rfl

/-- Settles O3: a word that decodes matches its instruction's row, a word that a row matches decodes, and a word that no row
matches is rejected by name. -/
theorem decoderAgreesWithOpcodeTable : Obligations.DecoderAgreesWithOpcodeTable := by
  intro w
  refine ⟨⟨?_, ?_⟩, fun i => opcodeRow_of_decodeWord_ok, fun hrows => ?_⟩
  · rintro ⟨i, hdecode⟩
    obtain ⟨row, hrow, hmatch⟩ := opcodeRow_of_decodeWord_ok hdecode
    exact ⟨row, List.mem_of_getElem? hrow, hmatch⟩
  · rintro ⟨row, hmem, hmatch⟩
    obtain ⟨k, hrow⟩ := List.mem_iff_getElem?.1 hmem
    obtain ⟨i, hdecode, -⟩ := decodeWord_of_opcodeRow hrow hmatch
    exact ⟨i, hdecode⟩
  · obtain ⟨r, hdecode⟩ := decodeWord_error_of_no_row hrows
    rw [hdecode, decodeWord_error_eq hdecode]

/-- Settles O4: the number of a row that matches a word is the row number of the one instruction the word decodes to. -/
theorem opcodeRowsDoNotOverlap : Obligations.OpcodeRowsDoNotOverlap := by
  intro w j k row row' hrow hrow' hmatch hmatch'
  obtain ⟨i, hdecode, hi⟩ := decodeWord_of_opcodeRow hrow hmatch
  obtain ⟨i', hdecode', hi'⟩ := decodeWord_of_opcodeRow hrow' hmatch'
  have hsame : i = i' := Except.ok.inj (hdecode.symm.trans hdecode')
  rw [← hi, ← hi', hsame]

/-- Settles O5: the decoder fills each operand from a field of the word, and the field is that range of its bits. -/
theorem operandsAreFieldsOfTheWord : Obligations.OperandsAreFieldsOfTheWord := by
  intro w i hdecode
  have hspec := decodeWord_spec w
  rw [hdecode] at hspec
  cases hspec with
  | cls | ret => trivial
  | jp | call | jpV0 => exact ⟨nnnField_toNat w, (Machine.targetOf_toNat _).trans (nnnField_toNat w)⟩
  | ldImm | addImm => exact ⟨xField_val w, kkField_toNat w⟩
  | ldReg | orReg | andReg | xorReg | addReg | subReg | shrReg | subnReg | shlReg => exact ⟨xField_val w, yField_val w⟩
  | drw => exact ⟨xField_val w, yField_val w, heightField_val w⟩

/-- Settles O6: eight of the words are the encodings of their instructions; 0xEEEE has the uncovered high nibble 0xE. -/
theorem writtenWordsDecode : Obligations.WrittenWordsDecode :=
  ⟨decodeWord_encodeWord (.ldImm 3 0x2A), decodeWord_encodeWord (.ldImm 0xA 0x01), decodeWord_encodeWord (.jp 0xABC),
    decodeWord_encodeWord (.addImm 0 0x0A), decodeWord_encodeWord (.shrReg 1 0), decodeWord_encodeWord (.shlReg 1 2),
    decodeWord_encodeWord (.drw 0 1 2), decodeWord_encodeWord .ret, by decide⟩

end Sys2Proof
end

section
/-! PROOFS. Family 0x8, its nine instructions (44_alu.md). -/

namespace Sys2Proof.Machine

/-! ## Flags and results as numbers -/

theorem flagBit_toNat (p : Prop) [Decidable p] : (flagBit (decide p)).toNat = if p then 1 else 0 := by
  by_cases hp : p <;> simp [flagBit, hp]

/-- VF after `ADD` is 1 exactly when the sum exceeds a byte (R135). -/
theorem carryFlag_toNat (a b : Byte) : (carryFlag a b).toNat = if a.toNat + b.toNat > 255 then 1 else 0 :=
  flagBit_toNat _

/-- VF after a subtraction is 1 exactly when it borrows (R136, R138). -/
theorem borrowFlag_toNat (a b : Byte) : (borrowFlag a b).toNat = if a.toNat < b.toNat then 1 else 0 :=
  flagBit_toNat _

theorem addWrapping_toNat (a b : Byte) : (addWrapping a b).toNat = (a.toNat + b.toNat) % 256 := rfl

theorem subWrapping_toNat (a b : Byte) :
    (subWrapping a b).toNat = if b.toNat ≤ a.toNat then a.toNat - b.toNat else a.toNat + 256 - b.toNat := by
  have := a.isLt
  have := b.isLt
  rw [subWrapping, trunc8, BitVec.toNat_ofNat]
  split <;> omega

theorem shiftRightOne_toNat (a : Byte) : (shiftRightOne a).toNat = a.toNat / 2 := by
  rw [shiftRightOne, BitVec.toNat_ushiftRight, Nat.shiftRight_eq_div_pow, Nat.pow_one]

theorem shiftLeftOne_toNat (a : Byte) : (shiftLeftOne a).toNat = a.toNat * 2 % 256 := rfl

/-- Each admitted mask is of the form 2^k - 1, so the flag of `SHR` is a remainder (R137, D12). -/
theorem shrFlag_lowNibble_toNat (b : Byte) : (shrFlag .lowNibble b).toNat = b.toNat % 16 :=
  (BitVec.toNat_and ..).trans (Nat.and_two_pow_sub_one_eq_mod b.toNat 4)

theorem shrFlag_lowBit_toNat (b : Byte) : (shrFlag .lowBit b).toNat = b.toNat % 2 :=
  (BitVec.toNat_and ..).trans (Nat.and_two_pow_sub_one_eq_mod b.toNat 1)

/-- The flag of `SHL` is the high nibble left in place (R139). -/
theorem shlFlag_toNat (b : Byte) : (shlFlag b).toNat = b.toNat / 16 * 16 := by
  have hshift : shlFlag b = (b >>> 4) <<< 4 := by
    apply BitVec.eq_of_getElem_eq
    intro k hk
    interval_cases k <;> simp [shlFlag, shlFlagMask]
  have := b.isLt
  rw [hshift, BitVec.toNat_shiftLeft, BitVec.toNat_ushiftRight, Nat.shiftRight_eq_div_pow, Nat.shiftLeft_eq]
  omega

/-! ## Frames of several register writes -/

theorem SameRegsBut.refl (s : State) : SameRegsBut [] s s := fun _ _ => rfl

/-- One more register write adds its register to those that may have changed. -/
theorem SameRegsBut.writeV {changed : List Reg} {s t : State} (h : SameRegsBut changed s t) (x : Reg) (v : Byte) :
    SameRegsBut (x :: changed) s (t.writeV x v) := by
  intro r hr
  rw [State.readV_writeV_other t v (List.ne_of_not_mem_cons hr), h r (List.not_mem_of_not_mem_cons hr)]

/-- Two writes, first VF and then the destination, whose values are the flag and the result: the form of five of the nine
instructions (R9, D11). -/
theorem writesFlagThenResult_of_exec {i : Instr} {x : Reg} {flag v : Byte} {s : State}
    (h : exec i s = complete advInsn ((s.writeV VF flag).writeV x v)) :
    WritesFlagThenResult i x flag.toNat v.toNat s := by
  refine ⟨_, h, ?result, ?flag, ((SameRegsBut.refl s).writeV VF flag).writeV x v, rfl, rfl, fun _ => rfl⟩
  case result => rw [State.readV_setPc, State.readV_writeV_same]
  case flag =>
    intro hx
    rw [State.readV_setPc, State.readV_writeV_other _ v hx.symm, State.readV_writeV_same]

/-! ## The nine instructions -/

/-- Settles O31: each of the four is one register write, of a value read from the state before it. -/
theorem copyAndLogicWriteVxOnly : Obligations.CopyAndLogicWriteVxOnly := fun _ _ _ =>
  ⟨writesOneRegister_of_exec rfl, writesOneRegister_of_exec rfl, writesOneRegister_of_exec rfl, writesOneRegister_of_exec rfl⟩

/-- Settles O32: VF receives the carry and `V[x]` the low 8 bits, both of operands read before either write. -/
theorem addSetsCarryAndWraps : Obligations.AddSetsCarryAndWraps := by
  intro x y s
  rw [← carryFlag_toNat, ← addWrapping_toNat]
  exact writesFlagThenResult_of_exec rfl

/-- Settles O33: VF receives the borrow and `V[x]` the wrapped difference, both of operands read before either write. -/
theorem subtractSetsBorrowAndWraps : Obligations.SubtractSetsBorrowAndWraps := by
  intro x y s
  rw [← borrowFlag_toNat, ← subWrapping_toNat]
  exact writesFlagThenResult_of_exec rfl

/-- Settles O34: the form of `SUB` with the operands exchanged. -/
theorem subtractReversedSetsBorrowAndWraps : Obligations.SubtractReversedSetsBorrowAndWraps := by
  intro x y s
  rw [← borrowFlag_toNat, ← subWrapping_toNat]
  exact writesFlagThenResult_of_exec rfl

/-- A register read after a write of VF gives the flag when it is VF itself: what the shifts read again (R137, R139). -/
theorem State.readV_writeV_VF_toNat (s : State) (y : Reg) (flag : Byte) :
    ((s.writeV VF flag).readV y).toNat = if y = VF then flag.toNat else (s.readV y).toNat := by
  rw [State.readV_writeV, apply_ite BitVec.toNat]

/-- Settles O35: the flag is a remainder for either mask, and what is shifted is `V[y]` as it stands after VF is written. -/
theorem shiftRightMasksThenShifts : Obligations.ShiftRightMasksThenShifts := by
  intro x y s flag hflag
  have hmask : flag = (shrFlag s.cfg.shrFlagMask (s.readV y)).toNat := by
    rw [hflag]
    cases s.cfg.shrFlagMask with
    | lowNibble => exact (shrFlag_lowNibble_toNat _).symm
    | lowBit => exact (shrFlag_lowBit_toNat _).symm
  rw [hmask, ← State.readV_writeV_VF_toNat, ← shiftRightOne_toNat]
  exact writesFlagThenResult_of_exec rfl

/-- `SHL` writes VF, then `V[y]`, then `V[x]`, the last two with one value (R139). -/
theorem exec_shlReg (x y : Reg) (s : State) :
    exec (.shlReg x y) s = complete advInsn
      (((s.writeV VF (shlFlag (s.readV y))).writeV y (shiftLeftOne ((s.writeV VF (shlFlag (s.readV y))).readV y))).writeV x
        (shiftLeftOne ((s.writeV VF (shlFlag (s.readV y))).readV y))) := by
  simp only [exec, execShlReg, State.readV_writeV_same]

/-- Settles O36: `V[y]` and `V[x]` receive one value, so it does not matter whether they are the same register, and VF
keeps the flag only if neither is VF. -/
theorem shiftLeftMasksThenShiftsBoth : Obligations.ShiftLeftMasksThenShiftsBoth := by
  rintro x y s flag shifted rfl rfl
  rw [← shlFlag_toNat, ← State.readV_writeV_VF_toNat, ← shiftLeftOne_toNat]
  refine ⟨_, exec_shlReg x y s, ?destination, ?source, ?vf, (((SameRegsBut.refl s).writeV VF _).writeV y _).writeV x _, rfl, rfl,
    fun _ => rfl⟩
  case destination => rw [State.readV_setPc, State.readV_writeV_same]
  case source => rw [State.readV_setPc, State.readV_writeV, State.readV_writeV_same, ite_self]
  case vf =>
    intro hx hy
    rw [State.readV_setPc, State.readV_writeV_other _ _ hx.symm, State.readV_writeV_other _ _ hy.symm,
      State.readV_writeV_same]

/-! ## The family as a whole -/

theorem writesOneRegister_value {i : Instr} {x : Reg} {v : Byte} {s : State} (h : WritesOneRegister i x v s) :
    ∃ t, exec i s = .next t ∧ (t.readV x).toNat = v.toNat := by
  obtain ⟨t, hexec, hvalue, -⟩ := h
  exact ⟨t, hexec, congrArg _ hvalue⟩

theorem writesFlagThenResult_value {i : Instr} {x : Reg} {f v : Nat} {s : State} (h : WritesFlagThenResult i x f v s) :
    ∃ t, exec i s = .next t ∧ (t.readV x).toNat = v := by
  obtain ⟨t, hexec, hvalue, -⟩ := h
  exact ⟨t, hexec, hvalue⟩

theorem writesOneRegister_frame {i : Instr} {x : Reg} {v : Byte} {s : State} (h : WritesOneRegister i x v s) :
    ∃ t, exec i s = .next t ∧ t.pc = s.pc + 2 ∧ OnlyVPc s t := by
  obtain ⟨t, hexec, -, -, hpc, hframe⟩ := h
  exact ⟨t, hexec, hpc, hframe⟩

theorem writesFlagThenResult_frame {i : Instr} {x : Reg} {f v : Nat} {s : State} (h : WritesFlagThenResult i x f v s) :
    ∃ t, exec i s = .next t ∧ t.pc = s.pc + 2 ∧ OnlyVPc s t := by
  obtain ⟨t, hexec, -, -, -, hpc, hframe⟩ := h
  exact ⟨t, hexec, hpc, hframe⟩

/-- Settles O37: the value each of the nine leaves in its destination, at x = y = 0xF. -/
theorem vFAsBothOperands : Obligations.VFAsBothOperands := by
  rintro s hcfg f rfl
  obtain ⟨hld, hor, hand, hxor⟩ := copyAndLogicWriteVxOnly VF VF s
  obtain ⟨t, hshl, hshlValue, -⟩ := shiftLeftMasksThenShiftsBoth VF VF s _ _ rfl rfl
  have hadd := writesFlagThenResult_value (addSetsCarryAndWraps VF VF s)
  have hsub := writesFlagThenResult_value (subtractSetsBorrowAndWraps VF VF s)
  have hshr := writesFlagThenResult_value (shiftRightMasksThenShifts VF VF s _ rfl)
  have hsubn := writesFlagThenResult_value (subtractReversedSetsBorrowAndWraps VF VF s)
  rw [← Nat.two_mul] at hadd
  rw [if_pos (Nat.le_refl _), Nat.sub_self] at hsub hsubn
  rw [hcfg, if_pos rfl] at hshr
  rw [BitVec.or_self] at hor
  rw [BitVec.and_self] at hand
  rw [BitVec.xor_self] at hxor
  rw [if_pos rfl] at hshlValue
  simp only [List.forall_mem_cons]
  exact ⟨writesOneRegister_value hld, writesOneRegister_value hor, writesOneRegister_value hand,
    writesOneRegister_value hxor, hadd, hsub, hshr, hsubn, ⟨t, hshl, hshlValue⟩, fun _ h => absurd h List.not_mem_nil⟩

/-- Settles O38: the frame of each of the nine instructions, whatever it computes. -/
theorem aluFamilyChangesRegistersOnly : Obligations.AluFamilyChangesRegistersOnly := by
  intro x y s
  obtain ⟨hld, hor, hand, hxor⟩ := copyAndLogicWriteVxOnly x y s
  obtain ⟨t, hshl, -, -, -, -, hpc, hframe⟩ := shiftLeftMasksThenShiftsBoth x y s _ _ rfl rfl
  simp only [List.forall_mem_cons]
  exact ⟨writesOneRegister_frame hld, writesOneRegister_frame hor, writesOneRegister_frame hand,
    writesOneRegister_frame hxor, writesFlagThenResult_frame (addSetsCarryAndWraps x y s),
    writesFlagThenResult_frame (subtractSetsBorrowAndWraps x y s),
    writesFlagThenResult_frame (shiftRightMasksThenShifts x y s _ rfl),
    writesFlagThenResult_frame (subtractReversedSetsBorrowAndWraps x y s), ⟨t, hshl, hpc, hframe⟩,
    fun _ h => absurd h List.not_mem_nil⟩

end Sys2Proof.Machine
end

section
/-! PROOFS. The call stack and the jump with offset (41_misc.md, 42_jump_call.md, 45_jump_offset.md). -/

namespace Sys2Proof.Machine

/-- An instruction that sets the stack and then pc completes with only those changed. -/
theorem State.onlyStackPc_setPc (s : State) (sp : Fin 17) (stack : Vector Addr 16) (t : Addr) :
    OnlyStackPc s (({ s with sp := sp, stack := stack } : State).setPc t) :=
  ⟨rfl, fun _ => rfl⟩

/-- `RET` on an empty stack is the advance alone (R101, D4). -/
theorem exec_ret_empty {s : State} (h : s.sp.val = 0) : exec .ret s = .next (s.setPc (s.pc + 2)) := by
  rw [exec, execRet_empty h, complete_eq, advInsn]

/-- `RET` with entries in use takes the newest of them, adds the advance, and keeps the entry (R101, D4, D5). -/
theorem exec_ret_pop {s : State} (k : Fin 16) (h : s.sp.val = k.val + 1) :
    exec .ret s = .next (({ s with sp := k.castSucc } : State).setPc (s.stack[k.val] + 2)) := by
  have hsp : (⟨s.sp.val - 1, by omega⟩ : Fin 17) = k.castSucc := Fin.ext (by simp [h])
  have hentry : s.stack[s.sp.val - 1]'(by omega) = s.stack[k.val] := by simp [h]
  rw [exec, execRet_pop (by omega), hsp, hentry, complete_eq]
  rfl

/-- Settles O23: the two ways of `RET`, by whether the stack is empty. -/
theorem returnPopsOrSkips : Obligations.ReturnPopsOrSkips := by
  intro s
  by_cases hempty : s.sp.val = 0
  · refine ⟨_, exec_ret_empty hempty, fun k hk => ?_, fun _ => ⟨hempty, rfl⟩, rfl, s.onlyStackPc_setPc s.sp s.stack _⟩
    omega
  · have hlt := s.sp.isLt
    obtain ⟨k, hk⟩ : ∃ k : Fin 16, s.sp.val = k.val + 1 := ⟨⟨s.sp.val - 1, by omega⟩, (Nat.sub_add_cancel (Nat.pos_of_ne_zero hempty)).symm⟩
    refine ⟨_, exec_ret_pop k hk, fun j hj => ?_, fun h => absurd h hempty, rfl, s.onlyStackPc_setPc _ s.stack _⟩
    have hjk : j = k := Fin.ext (by omega)
    rw [hjk]
    exact ⟨rfl, rfl⟩

/-- `CALL nnn` with room puts its own address in the entry at sp (R111, D4). -/
theorem exec_call_room {s : State} (nnn : Operand) (h : s.sp.val < 16) :
    exec (.call nnn) s = .next (({ s with sp := ⟨s.sp.val + 1, by omega⟩, stack := s.stack.set s.sp.val s.pc h } : State).setPc
      (targetOf nnn)) := by
  rw [exec, execCall_room nnn h]
  exact complete_advNone _

/-- `CALL nnn` on a full stack is the fault alone (R172). -/
theorem exec_call_full {s : State} (nnn : Operand) (h : s.sp.val = 16) :
    exec (.call nnn) s = .next (s.faulted .stackOverflow s.pc) := by
  rw [exec, execCall_full nnn h, raise_eq]

/-- Settles O25: the stack after a call with room is the old one with the entry at sp set to the call's address. -/
theorem callPushesItsOwnAddress : Obligations.CallPushesItsOwnAddress := by
  intro nnn s k hk
  have hroom : s.sp.val < 16 := by omega
  have hentry (j : Fin 16) : (s.stack.set s.sp.val s.pc hroom)[j.val] = if s.sp.val = j.val then s.pc else s.stack[j.val] :=
    Vector.getElem_set ..
  refine ⟨_, exec_call_room nnn hroom, ?pushed, ?others, congrArg (· + 1) hk, targetOf_toNat nnn,
    s.onlyStackPc_setPc _ _ _⟩
  case pushed => exact (hentry k).trans (if_pos hk)
  case others =>
    intro j hj
    have hne : s.sp.val ≠ j.val := fun h => hj (Fin.ext (h.symm.trans hk))
    exact (hentry j).trans (if_neg hne)

/-- Settles O26: on a full stack the call raises before any write. -/
theorem callOnAFullStackRaises : Obligations.CallOnAFullStackRaises := by
  intro nnn s hfull
  exact ⟨_, exec_call_full nnn hfull, State.faulted_status .., State.faulted_cause .., rfl, State.faulted_info ..,
    State.onlyFaultRegs_faulted s _ _⟩

/-- Settles O27: the return pops the entry that the call pushed, which is the call's address, and no other entry has
changed in between. -/
theorem callThenReturnComesBack : Obligations.CallThenReturnComesBack := by
  intro nnn s p hroom
  obtain ⟨t, hcall, hpushed, hothers, hsp, -⟩ := callPushesItsOwnAddress nnn s ⟨s.sp.val, hroom⟩ rfl
  obtain ⟨u, hret, hpop, -, hstack, -⟩ := returnPopsOrSkips { t with pc := p }
  obtain ⟨husp, hupc⟩ := hpop ⟨s.sp.val, hroom⟩ hsp
  refine ⟨t, u, hcall, hret, by rw [hupc, ← hpushed], Fin.ext husp, fun j hj => ?_⟩
  have hne : j ≠ ⟨s.sp.val, hroom⟩ := Fin.ne_of_val_ne (Nat.ne_of_lt hj)
  rw [hstack, ← hothers j hne]

/-- The sum of a byte and a 12-bit operand fits a pc value, so it is not wrapped (R150, D22). -/
@[simp] theorem targetWithOffset_toNat (base : Byte) (nnn : Operand) :
    (targetWithOffset base nnn).toNat = base.toNat + nnn.toNat := by
  have := base.isLt
  have := nnn.isLt
  rw [targetWithOffset, BitVec.toNat_ofNat]
  omega

/-- `JP V0, nnn` sets pc to the sum and completes with no advance (R93, R150). -/
theorem exec_jpV0 (nnn : Operand) (s : State) :
    exec (.jpV0 nnn) s = .next (s.setPc (targetWithOffset (s.readV V0) nnn)) :=
  complete_advNone _

/-- Settles O28: the state after `JP V0` is `setPc` of the exact sum. -/
theorem jumpWithOffsetSetsPcToTheExactSum : Obligations.JumpWithOffsetSetsPcToTheExactSum := fun nnn s =>
  ⟨_, exec_jpV0 nnn s, targetWithOffset_toNat (s.readV V0) nnn, State.onlyPc_setPc s _⟩

end Sys2Proof.Machine
end

section
/-! PROOFS. Family 0xD and the Display (46_draw.md). -/

namespace Sys2Proof.Machine

/-! ## A draw inside memory -/

/-- The bit that the bytes at I, I+1, … put on a cell is the closed form of the sprite's pixel (R157, R159, R160). -/
theorem rowsPixel_memory (s : State) (x0 y0 : Byte) (n : Height) (r : Fin 32) (c : Fin 64) :
    rowsPixel x0.toNat y0.toNat ((List.range' s.I.toNat n.val).map s.mem.read) r c = spritePixel s x0 y0 n r c := by
  show rowsPixel .. = (decide (rowOffset y0.toNat r < n.val) && decide (colOffset x0.toNat c < 8) &&
    spriteBit (s.mem.read (s.I.toNat + rowOffset y0.toNat r)) (colOffset x0.toNat c))
  by_cases hrow : rowOffset y0.toNat r < n.val
  · simp [rowsPixel, rowPixel, hrow]
  · simp [rowsPixel, hrow]

/-- Some cell that is on meets a 1 bit of the sprite: what a draw reports (R157). -/
def SpriteCollides (s : State) (x0 y0 : Byte) (n : Height) : Prop :=
  ∃ r c, s.fb.cell r c = true ∧ spritePixel s x0 y0 n r c = true

/-- The rows that a draw reads, blitted: every cell is XORed with the sprite's pixel, and the collision is that some cell
that was on met a 1 bit. -/
theorem drawSprite_memory (s : State) (x0 y0 : Byte) (n : Height) :
    (∀ r c, (s.drawSprite x0 y0 ((List.range' s.I.toNat n.val).map s.mem.read)).1.fb.cell r c =
      (s.fb.cell r c ^^ spritePixel s x0 y0 n r c)) ∧
    ((s.drawSprite x0 y0 ((List.range' s.I.toNat n.val).map s.mem.read)).2 = true ↔ SpriteCollides s x0 y0 n) := by
  have hlen : ((List.range' s.I.toNat n.val).map s.mem.read).length ≤ 32 := by
    rw [List.length_map, List.length_range']
    omega
  obtain ⟨hcells, hcollides⟩ := drawRows_spec x0.toNat y0.toNat _ 0 (s.fb, false) hlen
  simp only [Nat.add_zero, rowsPixel_memory, Bool.false_eq_true, false_or] at hcells hcollides
  exact ⟨hcells, hcollides⟩

/-- VF after a draw is 1 or 0 by whether there was a collision. -/
theorem collisionFlag_eq_one_iff (b : Bool) : collisionFlag b = 1 ↔ b = true := by
  cases b <;> decide

theorem collisionFlag_eq_zero_iff (b : Bool) : collisionFlag b = 0 ↔ b = false := by
  cases b <;> decide

/-- A draw changes registers, the display and pc only. -/
theorem State.onlyVDisplayPc_drawSprite (s : State) (x0 y0 : Byte) (rows : List Byte) (v : Byte) (t : Addr) :
    OnlyVDisplayPc s (((s.drawSprite x0 y0 rows).1.writeV VF v).setPc t) :=
  ⟨rfl, fun _ => rfl⟩

/-- What a draw inside memory does, said once: cells, `dirty`, VF as a flag for the collision, and the frame (R155). -/
theorem exec_drw_inside (x y : Reg) {n : Height} {s : State} (h : n.val = 0 ∨ s.I.toNat + n.val ≤ 4096) :
    ∃ t, exec (.drw x y n) s = .next t ∧
      (∀ r c, t.fb.cell r c = (s.fb.cell r c ^^ spritePixel s (s.readV x) (s.readV y) n r c)) ∧ t.dirty = true ∧
      (t.readV VF = 1 ↔ SpriteCollides s (s.readV x) (s.readV y) n) ∧
      (t.readV VF = 0 ↔ ¬SpriteCollides s (s.readV x) (s.readV y) n) ∧
      SameRegsBut [VF] s t ∧ t.pc = s.pc + 2 ∧ OnlyVDisplayPc s t := by
  obtain ⟨hcells, hcollides⟩ := drawSprite_memory s (s.readV x) (s.readV y) n
  refine ⟨_, execDrw_inside x y h, hcells, rfl, ?one, ?zero, ?regs, rfl, s.onlyVDisplayPc_drawSprite _ _ _ _ _⟩
  case one => rw [State.readV_setPc, State.readV_writeV_same, collisionFlag_eq_one_iff, hcollides]
  case zero =>
    rw [State.readV_setPc, State.readV_writeV_same, collisionFlag_eq_zero_iff, ← hcollides, Bool.not_eq_true]
  case regs =>
    intro r hr
    rw [State.readV_setPc, State.readV_writeV_other _ _ (List.ne_of_not_mem_cons hr), State.readV_drawSprite]

/-- Settles O39: the two clauses on VF are the two values of the collision flag. -/
theorem drawXorsTheSprite : Obligations.DrawXorsTheSprite := by
  intro x y n s h
  obtain ⟨t, hexec, hcells, hdirty, hone, hzero, hframe⟩ := exec_drw_inside x y h
  refine ⟨t, hexec, hcells, hdirty, hone.2, fun hnone => hzero.2 ?_, hframe⟩
  rintro ⟨r, c, hon, hpixel⟩
  exact Bool.false_ne_true ((hnone r c hon).symm.trans hpixel)

/-- The sprite's pixels depend on I and the sprite's bytes only. -/
theorem spritePixel_congr {s s' : State} {n : Height} (hI : s'.I = s.I)
    (hbytes : ∀ k, k < n.val → s'.mem.read (s.I.toNat + k) = s.mem.read (s.I.toNat + k)) (x0 y0 : Byte) (r : Fin 32)
    (c : Fin 64) : spritePixel s' x0 y0 n r c = spritePixel s x0 y0 n r c := by
  simp only [spritePixel, hI]
  by_cases hrow : (r.val + 32 - y0.toNat % 32) % 32 < n.val
  · rw [hbytes _ hrow]
  · simp only [hrow, decide_false, Bool.false_and]

/-- Settles O41: both draws XOR one sprite into a cell, which cancels; the second collides where the first left a cell on
under a 1 bit, and a cell that the first turned on is such a cell. -/
theorem drawingTwiceRestores : Obligations.DrawingTwiceRestores := by
  intro x y n s t s' h hfirst hfb hx hy hI hbytes
  obtain ⟨t₁, hexec, hcells, -⟩ := exec_drw_inside x y h
  obtain rfl : t = t₁ := Host.Outcome.next.inj (hfirst.symm.trans hexec)
  obtain ⟨u, hsecond, hcells', -, hone, -⟩ := exec_drw_inside x y (s := s') (by rwa [hI])
  simp only [SpriteCollides, hfb, hx, hy, spritePixel_congr hI hbytes] at hcells' hone
  refine ⟨u, hsecond, fun r c => ?_, hone, ?_⟩
  · rw [hcells', hcells, Bool.xor_assoc, Bool.xor_self, Bool.xor_false]
  · rintro ⟨r, c, hoff, hon⟩
    have hpixel := hcells r c
    rw [hoff, hon, Bool.false_xor] at hpixel
    exact hone.2 ⟨r, c, hon, hpixel.symm⟩

/-- A sprite of zero bytes has no pixel. -/
theorem spritePixel_of_zero_bytes {s : State} {n : Height} (hzero : ∀ k, k < n.val → s.mem.read (s.I.toNat + k) = 0)
    (x0 y0 : Byte) (r : Fin 32) (c : Fin 64) : spritePixel s x0 y0 n r c = false := by
  simp only [spritePixel]
  by_cases hrow : (r.val + 32 - y0.toNat % 32) % 32 < n.val
  · simp [hzero _ hrow]
  · simp only [hrow, decide_false, Bool.false_and]

/-- Settles O42: without a pixel, or without a cell that is on, nothing collides, and without a pixel nothing flips. -/
theorem blankSpriteAndClearScreenGiveNoCollision : Obligations.BlankSpriteAndClearScreenGiveNoCollision := by
  intro x y n s h
  obtain ⟨t, hexec, hcells, -, -, hzero, -⟩ := exec_drw_inside x y h
  refine ⟨fun hblank => ⟨t, hexec, fun r c => ?_, hzero.2 ?_⟩, fun hclear => ⟨t, hexec, hzero.2 ?_⟩⟩
  · rw [hcells, spritePixel_of_zero_bytes hblank, Bool.xor_false]
  · rintro ⟨r, c, -, hpixel⟩
    rw [spritePixel_of_zero_bytes hblank] at hpixel
    cases hpixel
  · rintro ⟨r, c, hon, -⟩
    rw [hclear] at hon
    cases hon

/-! ## A draw outside memory -/

/-- INFO holds the address as a number: both an address of 16 bits and 4096 fit (R173, R174). -/
theorem firstOutside_toNat (a : Addr) : (firstOutside a.toNat).toNat = max a.toNat 4096 := by
  have := a.isLt
  rw [firstOutside, BitVec.toNat_ofNat]
  omega

/-- Settles O40: the range check comes before any write, so the state after it is the old one with the fault recorded. -/
theorem drawOutsideMemoryRaises : Obligations.DrawOutsideMemoryRaises := by
  intro x y n s hn hout
  have hexec : exec (.drw x y n) s = .next (s.faulted .addressRange (firstOutside s.I.toNat)) := execDrw_outside x y hn hout
  exact ⟨_, hexec, State.faulted_status .., State.faulted_cause .., rfl, firstOutside_toNat s.I,
    State.onlyFaultRegs_faulted s _ _⟩

/-! ## Render -/

theorem State.render_of_not_dirty {s : State} (h : s.dirty = false) : s.render = s := by
  simp [State.render, h]

/-- `render` leaves `dirty` cleared, by its own hand or because it was (R158). -/
theorem State.render_eq (s : State) : s.render = { s with dirty := false } := by
  cases hdirty : s.dirty with
  | true => simp [State.render, hdirty]
  | false => rw [State.render_of_not_dirty hdirty, ← hdirty]

theorem State.picture_of_dirty {s : State} (h : s.dirty = true) :
    s.picture = some (s.fb.map (fun row => row.map blockColour)) := if_pos h

theorem State.picture_of_not_dirty {s : State} (h : s.dirty = false) : s.picture = none := by
  simp [State.picture, h]

/-- Settles O43: what `render` does and paints, by `dirty`; after one render `dirty` is cleared. -/
theorem renderOnlyClearsDirty : Obligations.RenderOnlyClearsDirty := by
  intro s
  refine ⟨s.render_eq, State.render_of_not_dirty (State.render_dirty s),
    fun h => ⟨State.picture_of_not_dirty h, State.render_of_not_dirty h⟩, fun h => ⟨_, State.picture_of_dirty h, fun r c => ?_⟩⟩
  simp only [Vector.getElem_map]
  rfl

end Sys2Proof.Machine
end

section
/-! PROOFS. What any instruction answers and who writes what (10_state.md, 60_exceptions.md section 6). -/

namespace Sys2Proof.Machine

/-- Every instruction answers a next state: the range checks of calls and draws turn what could not be done into a fault,
which is a next state. -/
theorem exec_answers (i : Instr) (s : State) : ∃ t, exec i s = .next t := by
  cases i with
  | ret =>
    by_cases hempty : s.sp.val = 0
    · exact ⟨_, exec_ret_empty hempty⟩
    · exact ⟨_, execRet_pop (Nat.pos_of_ne_zero hempty)⟩
  | call nnn =>
    by_cases hroom : s.sp.val < 16
    · exact ⟨_, exec_call_room nnn hroom⟩
    · exact ⟨_, exec_call_full nnn (by omega)⟩
  | drw x y n =>
    by_cases hin : n.val = 0 ∨ s.I.toNat + n.val ≤ 4096
    · exact ⟨_, execDrw_inside x y hin⟩
    · exact ⟨_, execDrw_outside x y (by omega) (by omega)⟩
  | _ => exact ⟨_, rfl⟩

/-- Every cycle answers a next state, whichever way it goes. -/
theorem step_answers (s : State) : ∃ t, step s = .next t := by
  obtain ⟨-, hstep⟩ | ⟨-, -, hstep⟩ | ⟨_, -, -, hstep⟩ | ⟨_, i, -, -, hstep⟩ := step_cases s
  · exact ⟨_, hstep⟩
  · exact ⟨_, hstep⟩
  · exact ⟨_, hstep⟩
  · rw [hstep]
    exact exec_answers i s

/-- Settles O12: instructions first, then cycles. -/
theorem everyCycleAnswersANextState : Obligations.EveryCycleAnswersANextState := ⟨exec_answers, step_answers⟩

/-- Settles O14: of the three things an instruction can have done the two faults are what the hypotheses exclude, and a
completion leaves the status registers alone. -/
theorem nothingElseFaults : Obligations.NothingElseFaults := by
  intro i s hcall hdraw
  obtain ⟨t, hexec⟩ := exec_answers i s
  obtain hdone | ⟨nnn, hi, hfull, -⟩ | ⟨x, y, n, hi, hn, hout, -⟩ := exec_cases hexec
  · refine ⟨t, hexec, ?_⟩
    rw [hdone]
    exact ⟨rfl, rfl, rfl⟩
  · exact absurd hfull (hcall nnn hi)
  · have := hdraw x y n hi
    omega

/-! ## What the instructions with several ways to go can have done -/

theorem exec_ret_inv {s t : State} (h : exec .ret s = .next t) :
    t = s.setPc (s.pc + 2) ∨
    ∃ k : Fin 16, s.sp.val = k.val + 1 ∧ t = ({ s with sp := k.castSucc } : State).setPc (s.stack[k.val] + 2) := by
  by_cases hempty : s.sp.val = 0
  · rw [exec_ret_empty hempty] at h
    exact .inl (Host.Outcome.next.inj h).symm
  · have hlt := s.sp.isLt
    have hk : s.sp.val = (⟨s.sp.val - 1, by omega⟩ : Fin 16).val + 1 :=
      (Nat.sub_add_cancel (Nat.pos_of_ne_zero hempty)).symm
    rw [exec_ret_pop _ hk] at h
    exact .inr ⟨_, hk, (Host.Outcome.next.inj h).symm⟩

theorem exec_call_inv {nnn : Operand} {s t : State} (h : exec (.call nnn) s = .next t) :
    t = s.faulted .stackOverflow s.pc ∨
    ∃ hroom : s.sp.val < 16,
      t = ({ s with sp := ⟨s.sp.val + 1, by omega⟩, stack := s.stack.set s.sp.val s.pc hroom } : State).setPc (targetOf nnn) := by
  by_cases hroom : s.sp.val < 16
  · rw [exec_call_room nnn hroom] at h
    exact .inr ⟨hroom, (Host.Outcome.next.inj h).symm⟩
  · rw [exec_call_full nnn (by omega)] at h
    exact .inl (Host.Outcome.next.inj h).symm

theorem exec_drw_inv {x y : Reg} {n : Height} {s t : State} (h : exec (.drw x y n) s = .next t) :
    t = s.faulted .addressRange (firstOutside s.I.toNat) ∨
    (t.dirty = true ∧ t = { s with V := t.V, fb := t.fb, dirty := t.dirty, pc := s.pc + 2 }) := by
  by_cases hin : n.val = 0 ∨ s.I.toNat + n.val ≤ 4096
  · obtain ⟨t', hexec, -, hdirty, -, -, -, hpc, hframe, -⟩ := exec_drw_inside x y hin
    obtain rfl : t = t' := Host.Outcome.next.inj (h.symm.trans hexec)
    rw [hpc] at hframe
    exact .inr ⟨hdirty, hframe⟩
  · rw [exec, execDrw_outside x y (by omega) (by omega)] at h
    exact .inl (Host.Outcome.next.inj h).symm

/-! ## Who writes what -/

/-- All that an instruction can do to the call stack: nothing, a return's pop, or a call's push. -/
theorem exec_stack_cases {i : Instr} {s t : State} (h : exec i s = .next t) :
    (t.sp = s.sp ∧ t.stack = s.stack) ∨
    (i = .ret ∧ t.sp.val < s.sp.val ∧ t.stack = s.stack) ∨
    (∃ nnn, i = .call nnn ∧ ∃ hroom : s.sp.val < 16, t.sp.val = s.sp.val + 1 ∧ t.stack = s.stack.set s.sp.val s.pc hroom) := by
  cases i with
  | ret =>
    obtain rfl | ⟨k, hk, rfl⟩ := exec_ret_inv h
    · exact .inl ⟨rfl, rfl⟩
    · exact .inr (.inl ⟨rfl, Nat.lt_of_succ_le hk.ge, rfl⟩)
  | call nnn =>
    obtain rfl | ⟨hroom, rfl⟩ := exec_call_inv h
    · exact .inl ⟨rfl, rfl⟩
    · exact .inr (.inr ⟨nnn, rfl, hroom, rfl, rfl⟩)
  | drw x y n =>
    obtain rfl | ⟨-, hframe⟩ := exec_drw_inv h
    · exact .inl ⟨rfl, rfl⟩
    · rw [hframe]
      exact .inl ⟨rfl, rfl⟩
  | _ =>
    cases h
    exact .inl ⟨rfl, rfl⟩

/-- An instruction leaves the display alone, or is `CLS` or `DRW`; either way a set `dirty` stays set. -/
theorem exec_display_cases {i : Instr} {s t : State} (h : exec i s = .next t) :
    (t.fb = s.fb ∧ t.dirty = s.dirty) ∨ (t.dirty = true ∧ (i = .cls ∨ ∃ x y n, i = .drw x y n)) := by
  cases i with
  | cls =>
    cases h
    exact .inr ⟨rfl, .inl rfl⟩
  | drw x y n =>
    obtain rfl | ⟨hdirty, -⟩ := exec_drw_inv h
    · exact .inl ⟨rfl, rfl⟩
    · exact .inr ⟨hdirty, .inr ⟨x, y, n, rfl⟩⟩
  | ret =>
    obtain rfl | ⟨k, -, rfl⟩ := exec_ret_inv h <;> exact .inl ⟨rfl, rfl⟩
  | call nnn =>
    obtain rfl | ⟨hroom, rfl⟩ := exec_call_inv h <;> exact .inl ⟨rfl, rfl⟩
  | _ =>
    cases h
    exact .inl ⟨rfl, rfl⟩

/-- Settles O45: the three things an instruction can do to the stack, and the two it can do to the display. -/
theorem stackAndDisplayHaveTheirOwnWriters : Obligations.StackAndDisplayHaveTheirOwnWriters := by
  intro i s t h
  refine ⟨?array, ?rises, ?falls, ?display, ?dirty⟩
  case array =>
    intro hne
    obtain ⟨-, hstack⟩ | ⟨-, -, hstack⟩ | ⟨nnn, hi, -⟩ := exec_stack_cases h
    · exact absurd hstack hne
    · exact absurd hstack hne
    · exact ⟨nnn, hi⟩
  case rises =>
    intro hlt
    obtain ⟨hsp, -⟩ | ⟨-, hfall, -⟩ | ⟨nnn, hi, -⟩ := exec_stack_cases h
    · exact absurd hlt (by rw [hsp]; exact Nat.lt_irrefl _)
    · omega
    · exact ⟨nnn, hi⟩
  case falls =>
    intro hlt
    obtain ⟨hsp, -⟩ | ⟨hi, -⟩ | ⟨nnn, -, -, hrise, -⟩ := exec_stack_cases h
    · exact absurd hlt (by rw [hsp]; exact Nat.lt_irrefl _)
    · exact hi
    · omega
  case display =>
    intro hne
    obtain ⟨hfb, hdirty⟩ | ⟨-, hi⟩ := exec_display_cases h
    · exact absurd hne (by simp only [hfb, hdirty, ne_eq, not_true_eq_false, or_self, not_false_eq_true])
    · exact hi
  case dirty =>
    intro hset
    obtain ⟨-, hdirty⟩ | ⟨hdirty, -⟩ := exec_display_cases h
    · exact hdirty.trans hset
    · exact hdirty

/-- An instruction that writes one register changes VF only if that register is VF. -/
theorem eq_VF_of_writesOneRegister {i : Instr} {x : Reg} {v : Byte} {s t : State} (hwrites : WritesOneRegister i x v s)
    (h : exec i s = .next t) (hVF : t.readV VF ≠ s.readV VF) : x = VF := by
  obtain ⟨t', hexec, -, hothers, -⟩ := hwrites
  obtain rfl : t = t' := Host.Outcome.next.inj (h.symm.trans hexec)
  by_contra hx
  exact hVF (hothers VF (by rw [List.mem_singleton]; exact Ne.symm hx))

/-- Settles O44: the six of families 0x6, 0x7 and 0x8 that write one register change VF as that register, and the five
without a destination register change no register. -/
theorem vFChangesOnlyAsFlagOrDestination : Obligations.VFChangesOnlyAsFlagOrDestination := by
  intro i s t h hVF
  cases i with
  | addReg | subReg | shrReg | subnReg | shlReg | drw => trivial
  | ldImm x kk => exact eq_VF_of_writesOneRegister (ldImm_writesOneRegister x kk s) h hVF
  | addImm x kk => exact eq_VF_of_writesOneRegister (addImm_writesOneRegister x kk s) h hVF
  | ldReg | orReg | andReg | xorReg => exact eq_VF_of_writesOneRegister (writesOneRegister_of_exec rfl) h hVF
  | cls | jp | jpV0 =>
    cases h
    exact hVF rfl
  | ret =>
    obtain rfl | ⟨k, -, rfl⟩ := exec_ret_inv h <;> exact hVF rfl
  | call nnn =>
    obtain rfl | ⟨hroom, rfl⟩ := exec_call_inv h <;> exact hVF rfl

end Sys2Proof.Machine
end

section
/-! PROOFS. Cycles and runs of cycles (40_cycle_and_dispatch.md, 60_exceptions.md). -/

namespace Sys2Proof.Machine

/-! ## When a cycle faults -/

/-- A halted core answers its own state (R178). -/
theorem step_of_halted {s : State} (h : s.status = .fault) : step s = .next s := by
  simp [step, cycle, h]

/-- Settles O10: a pc above 4094 is one of the four ways a step goes, and INFO holds the maximum. -/
theorem fetchOutsideMemoryRaises : Obligations.FetchOutsideMemoryRaises := by
  intro s hrun hpc
  exact ⟨_, step_of_pc_outside hrun hpc, State.faulted_status .., State.faulted_cause .., rfl, firstOutside_toNat s.pc,
    State.onlyFaultRegs_faulted s _ _⟩

/-- The word a state fetches is determined by the state. -/
theorem State.FetchesWord.unique {s : State} {w w' : Insn} (h : s.FetchesWord w) (h' : s.FetchesWord w') : w = w' :=
  Option.some.inj (h.fetch_eq.symm.trans h'.fetch_eq)

/-- The ways for a running core to fault (R175). -/
def State.FaultsNext (s : State) : Prop :=
  4094 < s.pc.toNat ∨
  ∃ w, s.FetchesWord w ∧
    ((∀ row ∈ opcodeTable, w &&& row.mask ≠ row.pattern) ∨
     (∃ nnn, decodeWord w = .ok (.call nnn) ∧ s.sp.val = 16) ∨
     (∃ x y n, decodeWord w = .ok (.drw x y n) ∧ 0 < n.val ∧ 4096 < s.I.toNat + n.val))

/-- A word that decodes to an instruction which does not fault is none of the ways to fault. -/
theorem not_faultsNext_of_exec {s t : State} {w : Insn} {i : Instr} (hfetch : s.FetchesWord w) (hdecode : decodeWord w = .ok i)
    (hexec : exec i s = .next t) (hrun : t.Running) : ¬s.FaultsNext := by
  rintro (hpc | ⟨w', hfetch', hways⟩)
  · obtain ⟨-, hin, -⟩ := hfetch
    exact absurd hin (Nat.not_le.2 hpc)
  obtain rfl := hfetch.unique hfetch'
  obtain hrows | ⟨nnn, hcall, hfull⟩ | ⟨x, y, n, hdraw, hn, hout⟩ := hways
  · obtain ⟨r, hreject⟩ := decodeWord_error_of_no_row hrows
    cases hdecode.symm.trans hreject
  · obtain rfl := Except.ok.inj (hdecode.symm.trans hcall)
    rw [exec_call_full nnn hfull] at hexec
    cases hexec
    cases hrun
  · obtain rfl := Except.ok.inj (hdecode.symm.trans hdraw)
    rw [exec, execDrw_outside x y hn hout] at hexec
    cases hexec
    cases hrun

/-- A cycle of a running core either is one of the ways to fault, and then records a cause and changes nothing else, or is
none of them, and then the core still runs. -/
theorem step_faults_or_runs {s t : State} (hrun : s.Running) (hstep : step s = .next t) :
    (s.FaultsNext ∧ ∃ c info, c ≠ .none ∧ t = s.faulted c info) ∨ (¬s.FaultsNext ∧ t.Running) := by
  obtain ⟨hhalted, -⟩ | ⟨-, hpc, h⟩ | ⟨w, hfetch, ⟨r, hreject⟩, h⟩ | ⟨w, i, hfetch, hdecode, h⟩ := step_cases s
  · exact absurd (hrun.symm.trans hhalted) (by decide)
  · exact .inl ⟨.inl hpc, _, _, by decide, Host.Outcome.next.inj (hstep.symm.trans h)⟩
  · have hrows : ∀ row ∈ opcodeTable, w &&& row.mask ≠ row.pattern := by
      intro row hmem hmatch
      obtain ⟨k, hrow⟩ := List.mem_iff_getElem?.1 hmem
      obtain ⟨i, hdecode, -⟩ := decodeWord_of_opcodeRow hrow hmatch
      cases hreject.symm.trans hdecode
    exact .inl ⟨.inr ⟨w, hfetch, .inl hrows⟩, _, _, by decide, Host.Outcome.next.inj (hstep.symm.trans h)⟩
  · have hexec : exec i s = .next t := h.symm.trans hstep
    obtain hdone | ⟨nnn, rfl, hfull, hfaulted⟩ | ⟨x, y, n, rfl, hn, hout, hfaulted⟩ := exec_cases hexec
    · have hrun' : t.Running := by
        rw [State.Running, hdone]
        exact hrun
      exact .inr ⟨not_faultsNext_of_exec hfetch hdecode hexec hrun', hrun'⟩
    · exact .inl ⟨.inr ⟨w, hfetch, .inr (.inl ⟨nnn, hdecode, hfull⟩)⟩, _, _, by decide, hfaulted⟩
    · exact .inl ⟨.inr ⟨w, hfetch, .inr (.inr ⟨x, y, n, hdecode, hn, hout⟩)⟩, _, _, by decide, hfaulted⟩

/-- Settles O13: a cycle that is one of the ways to fault ends halted, any other cycle ends running. -/
theorem cycleFaultsExactlyWhenTheTableSays : Obligations.CycleFaultsExactlyWhenTheTableSays := by
  intro s t hrun hstep
  obtain ⟨hways, c, info, hc, rfl⟩ | ⟨hways, hrun'⟩ := step_faults_or_runs hrun hstep
  · exact ⟨⟨fun _ => hways, fun _ => rfl⟩, fun _ => ⟨hc, State.onlyFaultRegs_faulted s c info⟩⟩
  · have hnot : t.status ≠ .fault := by
      rw [hrun']
      decide
    exact ⟨⟨fun h => absurd h hnot, fun h => absurd h hways⟩, fun h => absurd h hnot⟩

/-! ## Runs -/

/-- A state that a cycle does not move is not moved by any number of cycles. -/
theorem run_of_step_self {s : State} (h : step s = .next s) (k : Nat) : Sys2Proof.core.run k s = .next s := by
  induction k with
  | zero => exact run_zero s
  | succ k ih => rw [run_succ k h, ih]

/-- What every cycle keeps, every run keeps. -/
theorem run_keeps {P : State → Prop} (hstep : ∀ s t, P s → step s = .next t → P t) (n : Nat) :
    ∀ s t, P s → Sys2Proof.core.run n s = .next t → P t := by
  induction n with
  | zero =>
    intro s t hs hrun
    cases hrun
    exact hs
  | succ n ih =>
    intro s t hs hrun
    obtain ⟨u, hu⟩ := step_answers s
    rw [run_succ n hu] at hrun
    exact ih u t (hstep s u hs hu) hrun

/-- Settles O11: one cycle of a halted core does not move it. -/
theorem haltedCoreIgnoresCycles : Obligations.HaltedCoreIgnoresCycles := fun k _ hhalted =>
  run_of_step_self (step_of_halted hhalted) k

/-- At an idle loop the fetched word is a jump to the pc it was fetched from (R13). -/
theorem State.AtIdleLoop.decodes {s : State} (h : s.AtIdleLoop) :
    ∃ w nnn, s.FetchesWord w ∧ decodeWord w = .ok (.jp nnn) ∧ s.pc.toNat = nnn.toNat := by
  obtain ⟨hfetch, hpc⟩ := h
  have hword : (BitVec.ofNat 16 (0x1000 + s.pc.toNat)).toNat = 0x1000 + s.pc.toNat := by
    rw [BitVec.toNat_ofNat]
    omega
  generalize BitVec.ofNat 16 (0x1000 + s.pc.toNat) = w at hfetch hword
  refine ⟨w, nnnField w, hfetch, ?_, ?_⟩
  · rw [decodeWord_by_numbers, hword, show (0x1000 + s.pc.toNat) / 4096 = 1 by omega]
    rfl
  · rw [nnnField_toNat, hword]
    omega

/-- Settles O17: the cycle is a jump to its own address, which leaves the state as it was. -/
theorem idleLoopIsAFixedPoint : Obligations.IdleLoopIsAFixedPoint := by
  intro n s hidle
  obtain ⟨w, nnn, hfetch, hdecode, hpc⟩ := hidle.decodes
  obtain ⟨-, hjump⟩ := jumpSetsPc
  obtain ⟨t, hexec, -, -, -, hown⟩ := hjump nnn s
  have hstep : step s = .next s := by
    rw [stepRunsTheDecodedInstruction s w _ hfetch hdecode, hexec, hown hpc]
  exact run_of_step_self hstep n

/-! ## What no cycle changes -/

/-- Memory, I, the key input and the parameter are the same. -/
def SameConstants (s t : State) : Prop := t.mem = s.mem ∧ t.I = s.I ∧ t.keys = s.keys ∧ t.cfg = s.cfg

theorem SameConstants.refl (s : State) : SameConstants s s := ⟨rfl, rfl, rfl, rfl⟩

theorem SameConstants.faulted (s : State) (c : Cause) (info : BitVec 16) : SameConstants s (s.faulted c info) :=
  ⟨rfl, rfl, rfl, rfl⟩

theorem SameConstants.trans {s t u : State} (hst : SameConstants s t) (htu : SameConstants t u) : SameConstants s u := by
  obtain ⟨hmem, hI, hkeys, hcfg⟩ := hst
  obtain ⟨hmem', hI', hkeys', hcfg'⟩ := htu
  exact ⟨hmem'.trans hmem, hI'.trans hI, hkeys'.trans hkeys, hcfg'.trans hcfg⟩

theorem exec_sameConstants {i : Instr} {s t : State} (h : exec i s = .next t) : SameConstants s t := by
  obtain hdone | ⟨_, -, -, rfl⟩ | ⟨_, _, _, -, -, -, rfl⟩ := exec_cases h
  · rw [hdone]
    exact ⟨rfl, rfl, rfl, rfl⟩
  · exact SameConstants.faulted s _ _
  · exact SameConstants.faulted s _ _

theorem step_sameConstants {s t : State} (h : step s = .next t) : SameConstants s t := by
  obtain ⟨-, hstep⟩ | ⟨-, -, hstep⟩ | ⟨_, -, -, hstep⟩ | ⟨_, i, -, -, hstep⟩ := step_cases s
  · obtain rfl := Host.Outcome.next.inj (hstep.symm.trans h)
    exact SameConstants.refl s
  · obtain rfl := Host.Outcome.next.inj (hstep.symm.trans h)
    exact SameConstants.faulted s _ _
  · obtain rfl := Host.Outcome.next.inj (hstep.symm.trans h)
    exact SameConstants.faulted s _ _
  · exact exec_sameConstants (hstep.symm.trans h)

/-- Settles O16: what each cycle leaves alone, a run leaves alone. -/
theorem runsNeverWriteMemoryOrIndex : Obligations.RunsNeverWriteMemoryOrIndex := by
  intro n s t hrun
  obtain ⟨hmem, hconst⟩ : SameConstants s t :=
    run_keeps (fun _ _ hu hstep => hu.trans (step_sameConstants hstep)) n s t (SameConstants.refl s) hrun
  exact ⟨hmem, fun a => by rw [hmem], hconst⟩

/-! ## What no cycle reads -/

/-- The state with the host's key input and `dirty` as the host may have made it by rendering. -/
def State.withKeysDirty (s : State) (k : BitVec 16) (d : Bool) : State := { s with keys := k, dirty := d }

/-- An instruction does the same whatever the keys and `dirty` are. -/
theorem exec_withKeysDirty {i : Instr} {s t : State} (k : BitVec 16) (d : Bool) (h : exec i s = .next t) :
    ∃ d', exec i (s.withKeysDirty k d) = .next (t.withKeysDirty k d') := by
  cases i with
  | ret =>
    by_cases hempty : s.sp.val = 0
    · rw [exec_ret_empty hempty] at h
      cases h
      exact ⟨d, exec_ret_empty (s := s.withKeysDirty k d) hempty⟩
    · rw [exec, execRet_pop (Nat.pos_of_ne_zero hempty)] at h
      cases h
      exact ⟨d, execRet_pop (s := s.withKeysDirty k d) (Nat.pos_of_ne_zero hempty)⟩
  | call nnn =>
    by_cases hroom : s.sp.val < 16
    · rw [exec_call_room nnn hroom] at h
      cases h
      exact ⟨d, exec_call_room (s := s.withKeysDirty k d) nnn hroom⟩
    · rw [exec_call_full nnn (by omega)] at h
      cases h
      exact ⟨d, exec_call_full (s := s.withKeysDirty k d) nnn (Nat.eq_of_lt_succ_of_not_lt s.sp.isLt hroom)⟩
  | drw x y n =>
    by_cases hin : n.val = 0 ∨ s.I.toNat + n.val ≤ 4096
    · rw [exec, execDrw_inside x y hin] at h
      cases h
      exact ⟨true, execDrw_inside (s := s.withKeysDirty k d) x y hin⟩
    · have hn : 0 < n.val := by omega
      have hout : 4096 < s.I.toNat + n.val := by omega
      rw [exec, execDrw_outside x y hn hout] at h
      cases h
      exact ⟨d, execDrw_outside (s := s.withKeysDirty k d) x y hn hout⟩
  | cls =>
    cases h
    exact ⟨true, rfl⟩
  | _ =>
    cases h
    exact ⟨d, rfl⟩

/-- A cycle goes the same way whatever the keys and `dirty` are. -/
theorem step_withKeysDirty {s t : State} (k : BitVec 16) (d : Bool) (h : step s = .next t) :
    ∃ d', step (s.withKeysDirty k d) = .next (t.withKeysDirty k d') := by
  obtain ⟨hhalted, hstep⟩ | ⟨hrun, hpc, hstep⟩ | ⟨w, hfetch, ⟨r, hreject⟩, hstep⟩ | ⟨w, i, hfetch, hdecode, hstep⟩ :=
    step_cases s
  · obtain rfl := Host.Outcome.next.inj (hstep.symm.trans h)
    exact ⟨d, step_of_halted (s := s.withKeysDirty k d) hhalted⟩
  · obtain rfl := Host.Outcome.next.inj (hstep.symm.trans h)
    exact ⟨d, step_of_pc_outside (s := s.withKeysDirty k d) hrun hpc⟩
  · obtain rfl := Host.Outcome.next.inj (hstep.symm.trans h)
    exact ⟨d, (step_of_fetchesWord (s := s.withKeysDirty k d) hfetch).trans (execWord_error _ hreject)⟩
  · obtain ⟨d', hexec⟩ := exec_withKeysDirty k d (hstep.symm.trans h)
    exact ⟨d', (step_of_fetchesWord (s := s.withKeysDirty k d) hfetch).trans ((execWord_ok _ hdecode).trans hexec)⟩

/-- A run goes the same way whatever the keys and `dirty` are. -/
theorem run_withKeysDirty (k : BitVec 16) (n : Nat) : ∀ (s t : State) (d : Bool), Sys2Proof.core.run n s = .next t →
    ∃ d', Sys2Proof.core.run n (s.withKeysDirty k d) = .next (t.withKeysDirty k d') := by
  induction n with
  | zero =>
    intro s t d hrun
    cases hrun
    exact ⟨d, rfl⟩
  | succ n ih =>
    intro s t d hrun
    obtain ⟨u, hu⟩ := step_answers s
    obtain ⟨d', hu'⟩ := step_withKeysDirty k d hu
    rw [run_succ n hu] at hrun
    rw [run_succ n hu']
    exact ih u t d' hrun

/-- Settles O15: the run with the other keys and `dirty` ends in the same state but for those two. -/
theorem keysAndDirtyNeverMatter : Obligations.KeysAndDirtyNeverMatter := by
  intro n s t k d hrun
  obtain ⟨d', hrun'⟩ := run_withKeysDirty k n s t d hrun
  exact ⟨_, hrun', rfl⟩

end Sys2Proof.Machine
end

section
/-! PROOFS. Reset, the invariant, memory and the host's ports (10_state.md, 20_memory.md, 70_reset_and_hazards.md). -/

namespace Sys2Proof.Machine

/-! ## The invariant -/

/-- Settles O19: at reset no stack entry is in use and memory lists no byte; the rest is read off the reset values. -/
theorem resetMeetsTheInvariant : Obligations.ResetMeetsTheInvariant := by
  have hentries : State.reset.EntriesInReach := fun k hk => absurd hk (Nat.not_lt_zero k.val)
  exact ⟨⟨rfl, hentries, by decide, by decide, fun _ => rfl⟩, rfl, rfl, hentries, rfl⟩

/-- Settles O18: a reset leaves the reset values, whose memory lists no byte. -/
theorem resetSetsEveryPiece : Obligations.ResetSetsEveryPiece := by
  intro s
  refine ⟨?regs, rfl, rfl, ?memory, rfl, ?stack, ?cells, rfl, rfl, rfl, rfl, rfl, rfl⟩
  case regs => exact fun r => Vector.getElem_replicate r.isLt
  case memory => exact fun a ha => memRead_inside ha
  case stack => exact fun k => Vector.getElem_replicate k.isLt
  case cells => exact Fb.cell_off

/-- A fault keeps the invariant: it halts the core and records a cause. -/
theorem State.Inv.faulted {s : State} (h : s.Inv) {c : Cause} (hc : c ≠ .none) (info : BitVec 16) : (s.faulted c info).Inv := by
  obtain ⟨hwf, hentries, hpc, -, -⟩ := h
  exact ⟨hwf, hentries, hpc, ⟨nofun, fun h => absurd h hc⟩, nofun⟩

/-- An instruction that a cycle runs keeps every in-use stack entry at most 4094: the entry a call pushes is the pc that was
fetched from. -/
theorem exec_keeps_entriesInReach {i : Instr} {s t : State} (hentries : s.EntriesInReach) (hpc : s.pc.toNat ≤ 4094)
    (h : exec i s = .next t) : t.EntriesInReach := by
  intro k hk
  obtain ⟨hsp, hstack⟩ | ⟨-, hsp, hstack⟩ | ⟨nnn, -, hroom, hsp, hstack⟩ := exec_stack_cases h
  · rw [hstack]
    exact hentries k (hsp ▸ hk)
  · rw [hstack]
    exact hentries k (hk.trans hsp)
  · rw [hstack, Vector.getElem_set]
    split
    · exact hpc
    · exact hentries k (by omega)

/-- The advance of an instruction at a pc from which a cycle can fetch does not wrap (R93). -/
theorem toNat_add_two {a : Addr} (h : a.toNat ≤ 4094) : (a + 2).toNat = a.toNat + 2 := by
  rw [BitVec.toNat_add]
  exact Nat.mod_eq_of_lt (by show a.toNat + 2 < 65536; omega)

/-- Where an instruction that a cycle runs leaves pc: behind itself or behind a call, on the jump's target, or where it
was (R93, R150). -/
theorem exec_pc_le {i : Instr} {s t : State} (hentries : s.EntriesInReach) (hpc : s.pc.toNat ≤ 4094)
    (h : exec i s = .next t) : t.pc.toNat ≤ 4350 := by
  have hadvance := toNat_add_two hpc
  cases i with
  | ret =>
    obtain rfl | ⟨k, hk, rfl⟩ := exec_ret_inv h
    · rw [State.setPc_pc]
      omega
    · have hentry := hentries k (by omega)
      rw [State.setPc_pc, toNat_add_two hentry]
      omega
  | call nnn =>
    have := nnn.isLt
    obtain rfl | ⟨hroom, rfl⟩ := exec_call_inv h
    · rw [State.faulted_pc]
      omega
    · rw [State.setPc_pc, targetOf_toNat]
      omega
  | jp nnn =>
    have := nnn.isLt
    rw [exec_jp] at h
    cases h
    rw [State.setPc_pc, targetOf_toNat]
    omega
  | jpV0 nnn =>
    have := nnn.isLt
    have := (s.readV V0).isLt
    rw [exec_jpV0] at h
    cases h
    rw [State.setPc_pc, targetWithOffset_toNat]
    omega
  | drw x y n =>
    obtain rfl | ⟨-, hframe⟩ := exec_drw_inv h
    · rw [State.faulted_pc]
      omega
    · rw [hframe]
      exact hadvance.trans_le (by omega)
  | _ =>
    cases h
    exact hadvance.trans_le (by omega)

/-- An instruction that a cycle runs keeps the invariant. -/
theorem exec_keeps_inv {i : Instr} {s t : State} (hinv : s.Inv) (hpc : s.pc.toNat ≤ 4094) (h : exec i s = .next t) : t.Inv := by
  have ⟨hwf, hentries, _, hcause, hinfo⟩ := hinv
  have hentries' := exec_keeps_entriesInReach hentries hpc h
  have hpc' := exec_pc_le hentries hpc h
  obtain hdone | ⟨_, -, -, rfl⟩ | ⟨_, _, _, -, -, -, rfl⟩ := exec_cases h
  · rw [hdone]
    exact ⟨hwf, hentries', hpc', hcause, hinfo⟩
  · exact hinv.faulted (by decide) _
  · exact hinv.faulted (by decide) _

/-- Settles O20: of the four ways a step goes one changes nothing, two are faults and the last is an instruction. -/
theorem stepKeepsTheInvariant : Obligations.StepKeepsTheInvariant := by
  intro s t hinv hstep
  obtain ⟨-, h⟩ | ⟨-, -, h⟩ | ⟨_, -, -, h⟩ | ⟨_, i, ⟨-, hpc, -⟩, -, h⟩ := step_cases s
  · obtain rfl := Host.Outcome.next.inj (h.symm.trans hstep)
    exact hinv
  · obtain rfl := Host.Outcome.next.inj (h.symm.trans hstep)
    exact hinv.faulted (by decide) _
  · obtain rfl := Host.Outcome.next.inj (h.symm.trans hstep)
    exact hinv.faulted (by decide) _
  · exact exec_keeps_inv hinv hpc (h.symm.trans hstep)

/-! ## Memory -/

@[simp] theorem Memory.read_cons_same (k : Nat) (b : Byte) (m : Memory) : Memory.read ((k, b) :: m) k = b := if_pos rfl

theorem Memory.read_cons_other {k a : Nat} (b : Byte) (m : Memory) (h : k ≠ a) : Memory.read ((k, b) :: m) a = m.read a :=
  if_neg h

/-- A canonical memory reads something other than the reset contents at its first listed address; every canonical memory
that starts above it does not. -/
theorem Memory.read_head_ne {lo k : Nat} {b : Byte} {m m' : Memory} (hm : Memory.wfFrom lo ((k, b) :: m) = true)
    (hm' : Memory.wfFrom (k + 1) m' = true) : Memory.read ((k, b) :: m) k ≠ m'.read k := by
  obtain ⟨-, -, hb, -⟩ := (Memory.wfFrom_cons lo k b m).1 hm
  rwa [Memory.read_cons_same, Memory.read_below (Nat.lt_succ_self k) m' hm']

/-- Canonical memories that read alike inside memory are equal, whatever bound each starts from. -/
theorem Memory.eq_of_read_eq : ∀ (m m' : Memory) (lo lo' : Nat), Memory.wfFrom lo m = true → Memory.wfFrom lo' m' = true →
    (∀ a, a < 4096 → m.read a = m'.read a) → m = m'
  | [], [], _, _, _, _, _ => rfl
  | [], (k, b) :: m', _, lo', _, hm', heq => by
    obtain ⟨-, hk, -⟩ := (Memory.wfFrom_cons lo' k b m').1 hm'
    exact absurd (heq k hk).symm (Memory.read_head_ne hm' rfl)
  | (k, b) :: m, [], lo, _, hm, _, heq => by
    obtain ⟨-, hk, -⟩ := (Memory.wfFrom_cons lo k b m).1 hm
    exact absurd (heq k hk) (Memory.read_head_ne hm rfl)
  | (k, b) :: m, (k', b') :: m', lo, lo', hm, hm', heq => by
    obtain ⟨-, hk, hb, htail⟩ := (Memory.wfFrom_cons lo k b m).1 hm
    obtain ⟨-, hk', hb', htail'⟩ := (Memory.wfFrom_cons lo' k' b' m').1 hm'
    obtain hlt | rfl | hlt := Nat.lt_trichotomy k k'
    · have habove := (Memory.wfFrom_cons (k + 1) k' b' m').2 ⟨hlt, hk', hb', htail'⟩
      exact absurd (heq k hk) (Memory.read_head_ne hm habove)
    · have hhead : b = b' := by simpa using heq k hk
      have hrest : ∀ a, a < 4096 → Memory.read m a = Memory.read m' a := by
        intro a ha
        by_cases hka : k < a
        · simpa [Memory.read_cons_other _ _ hka.ne] using heq a ha
        · have hak : a < k + 1 := by omega
          rw [Memory.read_below hak m htail, Memory.read_below hak m' htail']
      rw [hhead, Memory.eq_of_read_eq m m' _ _ htail htail' hrest]
    · have habove := (Memory.wfFrom_cons (k' + 1) k b m).2 ⟨hlt, hk, hb, htail⟩
      exact absurd (heq k' hk').symm (Memory.read_head_ne hm' habove)

/-- Settles O21: address by address from the lowest listed one on. -/
theorem memoriesThatReadAlikeAreEqual : Obligations.MemoriesThatReadAlikeAreEqual := fun m m' hm hm' heq =>
  Memory.eq_of_read_eq m m' 0 0 hm hm' heq

/-- Bytes put at `a` leave every address outside their range as it was. -/
theorem Memory.read_putBytes_outside : ∀ (bs : List Byte) {m : Memory} {a a' : Nat}, a + bs.length ≤ 4096 → m.wf = true →
    (a' < a ∨ a + bs.length ≤ a') → (m.putBytes a bs).read a' = m.read a'
  | [], _, _, _, _, _, _ => rfl
  | b :: bs, m, a, a', ha, hm, hout => by
    simp only [List.length_cons] at ha hout
    have hne : a' ≠ a := by omega
    rw [Memory.putBytes, Memory.read_putBytes_outside bs (by omega) (Memory.put_wf b (by omega) hm) (by omega),
      Memory.read_put hm, if_neg hne]

/-- Bytes put at `a` read back in order: a later byte is written above an earlier one. -/
theorem Memory.read_putBytes_inside : ∀ (bs : List Byte) {m : Memory} {a k : Nat} {b : Byte}, a + bs.length ≤ 4096 →
    m.wf = true → bs[k]? = some b → (m.putBytes a bs).read (a + k) = b
  | b :: bs, m, a, 0, _, ha, hm, rfl => by
    simp only [List.length_cons] at ha
    rw [Memory.putBytes, Memory.read_putBytes_outside bs (by omega) (Memory.put_wf b (by omega) hm) (by omega),
      Memory.read_put hm, if_pos (Nat.add_zero a)]
  | b :: bs, m, a, k + 1, b', ha, hm, hk => by
    simp only [List.length_cons] at ha
    rw [Memory.putBytes, show a + (k + 1) = a + 1 + k by omega]
    exact Memory.read_putBytes_inside bs (by omega) (Memory.put_wf b (by omega) hm) hk

/-! ## The host's ports -/

theorem imageFits_iff (image : List Byte) : imageFits image = true ↔ image.length ≤ 3584 := decide_eq_true_iff

/-- `load` accepts an image that fits (R61, D23). -/
theorem State.hostLoad_fits (s : State) {image : List Byte} (h : image.length ≤ 3584) :
    s.hostLoad image = .next (s.loadImage image) := if_pos ((imageFits_iff image).2 h)

/-- Settles O46: an image that fits ends below 4096, so its bytes are put inside memory one above the other. -/
theorem loadPlacesTheImage : Obligations.LoadPlacesTheImage := by
  intro s image hwf
  refine ⟨fun hfits => ?_, fun hlong => if_neg (mt (imageFits_iff image).1 (Nat.not_le.2 hlong))⟩
  have hend : 0x200 + image.length ≤ 4096 := by omega
  exact ⟨_, s.hostLoad_fits hfits, rfl, Memory.putBytes_wf image 0x200 hend hwf,
    fun k b => Memory.read_putBytes_inside image hend hwf, fun a => Memory.read_putBytes_outside image hend hwf⟩

/-- Settles O47: reset gives the reset values from any core, and the load, which is then in its place, changes memory
only. -/
theorem bootSequenceLaunches : Obligations.BootSequenceLaunches := by
  intro r image hfits
  obtain ⟨hload, -⟩ := loadPlacesTheImage r.core.hostReset image rfl
  obtain ⟨t, ht, hframe, hwf, himage, -⟩ := hload hfits
  obtain ⟨⟨-, hentries, hpc, hcause, hinfo⟩, hrun, hnone, -, -⟩ := resetMeetsTheInvariant
  refine ⟨⟨r.core.hostReset, .wasReset⟩, ⟨t, .loaded⟩, rfl, congrArg (Rig.put .loaded) ht, ?_, ?_, ?_, himage, rfl⟩
  · rw [hframe]
    exact ⟨hrun, hnone, hentries, hwf⟩
  · rw [hframe]
    exact ⟨hwf, hentries, hpc, hcause, hinfo⟩
  · rw [hframe]
    rfl

/-- Settles O48: the phases in which each of the two moves has its place. -/
theorem hostMovesOutOfPlaceAreRefused : Obligations.HostMovesOutOfPlaceAreRefused := by
  intro r image
  constructor
  · intro hphase
    have hcycle : r.phase.mayCycle = false := by
      obtain h | h := hphase <;> rw [h] <;> rfl
    simp [Rig.move, hcycle]
  · intro hphase
    have hload : r.phase.mayLoad = false := by
      cases h : r.phase with
      | wasReset => exact absurd h hphase
      | constructed | loaded | cycling => rfl
    simp [Rig.move, hload]

/-! ## Placing a word -/

theorem tableWord_toNat (w : Insn) : tableWord 16 w.toNat = w := by
  rw [tableWord, Nat.mod_eq_of_lt w.isLt, BitVec.ofNat_toNat, BitVec.setWidth_eq]

/-- A state that can fetch is ready as it stands. -/
theorem State.readyToFetch_of_running {s : State} (hrun : s.Running) (hpc : s.pc.toNat ≤ 4094) : s.readyToFetch = s := by
  have hin := (State.pcInBounds_iff s).2 hpc
  simp [State.readyToFetch, hrun, hin]

/-- Placing a word in a state that can fetch puts its two bytes at pc (R61, R80). -/
theorem State.withFetchWord_of_running {s : State} (hrun : s.Running) (hpc : s.pc.toNat ≤ 4094) (w : Insn) :
    s.withFetchWord 16 w.toNat = { s with mem := s.mem.putBytes s.pc.toNat (wordBytes w) } := by
  rw [State.withFetchWord, tableWord_toNat, State.placeWord, State.readyToFetch_of_running hrun hpc]

/-- Settles O49: the two bytes read back at pc and pc+1, and they are the word high byte first. -/
theorem placedWordIsFetched : Obligations.PlacedWordIsFetched := by
  intro s w hrun hpc hwf
  rw [State.withFetchWord_of_running hrun hpc]
  have hend : s.pc.toNat + (wordBytes w).length ≤ 4096 := by
    show s.pc.toNat + 2 ≤ 4096
    omega
  have hhigh := Memory.read_putBytes_inside (wordBytes w) (k := 0) hend hwf rfl
  have hlow := Memory.read_putBytes_inside (wordBytes w) (k := 1) hend hwf rfl
  refine ⟨⟨hrun, hpc, ?_⟩, rfl⟩
  rw [Nat.add_zero] at hhigh
  show w.toNat = ((s.mem.putBytes s.pc.toNat (wordBytes w)).read s.pc.toNat).toNat * 256 +
    ((s.mem.putBytes s.pc.toNat (wordBytes w)).read (s.pc.toNat + 1)).toNat
  rw [hhigh, hlow, highByte_toNat, lowByte_toNat]
  omega

end Sys2Proof.Machine
end
